-- ==== Sys2Proof/Word.lean ====
section
/-! DEFINITION. The word type of the machine: every value is a byte or one bit (00_scope.md R5, R7). -/

namespace Sys2Proof

/-- An 8-bit value: a register, a memory cell, an address, an operand byte (R5: XLEN = ALEN = 8).
Unsigned; `+` and `-` wrap modulo 256 (R7), which is `BitVec`'s own arithmetic. -/
abbrev Byte := BitVec 8

end Sys2Proof
end

