-- ==== Sys2Proof/Config.lean ====
section
/-! DEFINITION. What the spec fixes for the machine and does not let a program change: the sizes of
00_scope.md R5, and the seven named parameters of R6. The values the machine runs with are
`Machine.params` (Machine/Params.lean). There is no free value: 93_implementation_defined.md section 1,
"Nothing in the machine produces an unpredictable value". -/

namespace Sys2Proof

/-- R5 MEMSIZE: memory cells, one byte each. -/
def Config.memSize : Nat := 256

/-- R5 PART_BASE: first address of the data partition. -/
def Config.partBase : Nat := 128

/-- R5 IMAGE_MAX: greatest length of a program image, in bytes. -/
def Config.imageMax : Nat := 128

/-- P_STORE_ADDR (R6, D1): the path of a store's address byte. -/
inductive StoreAddr where
  | rawEnforced
  | masked
  deriving DecidableEq, Repr

/-- P_JUMP_CONSUME (R6, D2): whether a jump that is not taken fetches its target byte. -/
inductive JumpConsume where
  | always
  | takenOnly
  deriving DecidableEq, Repr

/-- P_LOGIC_OP3 (R6, D4): what family 0x8 does when its operation field is 3. -/
inductive LogicOp3 where
  | xor
  | nop
  deriving DecidableEq, Repr

/-- P_RET (R6, D5): whether RET does nothing or performs `pc <- CT`. -/
inductive RetMode where
  | nop
  | restore
  deriving DecidableEq, Repr

/-- The rule that says which opcode bytes P_NONCANON = `refuse` refuses. 30_encoding.md has two, they differ for the
bytes 0x89 to 0x8B, and 90_conflicts.md does not name the point: both are modelled. DESIGN CHOICE (assumption 29). -/
inductive RefuseRule where
  /-- R84: "only the canonical bytes, and the bytes of families 0x0, 0x1, 0x5 and 0x8, are accepted". -/
  | r84
  /-- R76: every byte of its third column other than the canonical one has no meaning at all. -/
  | r76
  deriving DecidableEq, Repr

/-- P_NONCANON (R6, D7): what opcode bits the source does not name do when they are not zero. -/
inductive NonCanon where
  | ignore
  | nop
  | refuse (rule : RefuseRule)
  deriving DecidableEq, Repr

/-- P_FAULT_PC (R6, D13): the value of PC after a step that faulted. -/
inductive FaultPc where
  | restored
  | advanced
  deriving DecidableEq, Repr

/-- The seven parameters of R6. `resetClearsProgram` is P_RESET_CLEARS_PROGRAM (D11). -/
structure Params where
  storeAddr          : StoreAddr
  jumpConsume        : JumpConsume
  logicOp3           : LogicOp3
  ret                : RetMode
  nonCanon           : NonCanon
  resetClearsProgram : Bool
  faultPc            : FaultPc
  deriving DecidableEq, Repr

end Sys2Proof
end

