-- ==== Sys2Proof/Machine/Params.lean ====
section
/-! DEFINITION. The parameter values the machine runs with. They stand here, not in Config.lean, so that
a test that shows another value can mend them. -/

namespace Sys2Proof.Machine

/-- The default of every parameter of 00_scope.md R6 ("default first"), which is the value every rule of
the spec is written for. DEDUCED (assumptions 4 to 10: the spec's own decisions D1, D2, D4, D5, D7,
D11, D13); unsafe. -/
def params : Params where
  storeAddr          := .rawEnforced
  jumpConsume        := .always
  logicOp3           := .xor
  ret                := .nop
  nonCanon           := .ignore
  resetClearsProgram := false
  faultPc            := .restored

end Sys2Proof.Machine
end

