-- ==== Sys2Proof/Syntax.lean ====
section
/-! DEFINITION. The instructions: one constructor for each of the 44 rows of spec/opcode_table.json
(30_encoding.md R71, R72, R81). -/

namespace Sys2Proof

/-- The four general registers, slots 0 to 3 (10_state.md R20). A 2-bit field names each of them, so no
register number is out of range. -/
inductive Reg where
  | r0
  | r1
  | r2
  | r3
  deriving DecidableEq, Repr

/-- The flag a jump tests (42_control.md R140). -/
inductive FlagSel where
  | cf
  | sf
  | zf
  | pf
  deriving DecidableEq, Repr

/-- An instruction with its operands. A `Byte` operand is the operand byte, whole and as it is (R74). The
opcode bits the source does not name (R76) are no operands and are not kept. -/
inductive Instr where
  -- family 0x0
  | movRR (d r : Reg)
  -- family 0x1
  | movRI (d : Reg) (imm : Byte)
  | movRM (d : Reg) (a : Byte)
  | movRAcc (d : Reg)
  | movRPc (d : Reg)
  -- family 0x2: the store; its "destination=ACC" branch is unreachable (R79)
  | movMR (a : Byte) (r : Reg)
  -- family 0x3
  | movAccI (imm : Byte)
  | movAccM (a : Byte)
  -- family 0x4
  | incR (r : Reg)
  | decR (r : Reg)
  -- family 0x5, direct bit clear (0x50 to 0x57)
  | jnc (t : Byte)
  | jns (t : Byte)
  | jnz (t : Byte)
  | jnp (t : Byte)
  | jc (t : Byte)
  | js (t : Byte)
  | jz (t : Byte)
  | jp (t : Byte)
  -- family 0x5, direct bit set (0x58 to 0x5F)
  | jcD (t : Byte)
  | jsD (t : Byte)
  | jzD (t : Byte)
  | jpD (t : Byte)
  | jncD (t : Byte)
  | jnsD (t : Byte)
  | jnzD (t : Byte)
  | jnpD (t : Byte)
  -- family 0x6
  | decAcc
  | incAcc
  -- family 0x7
  | clrAcc
  -- family 0x8
  | andAcc (r : Reg)
  | orAcc (r : Reg)
  | notAcc
  | xorAcc (r : Reg)
  -- families 0x9, 0xA, 0xB: stubs
  | nop9
  | nopA
  | nopB
  -- family 0xC
  | ret
  | call (t : Byte)
  -- family 0xD
  | xchg (r : Reg)
  -- family 0xE
  | clc
  | stc
  | clz
  | stz
  -- family 0xF
  | reset
  deriving DecidableEq, Repr

end Sys2Proof
end

