-- ==== Sys2Proof/WellFormed.lean ====
section
/-! DEFINITION. Well-formedness of what is given to the machine.

INSTRUCTIONS: every term of `Instr` is well formed, because each operand has exactly the type its field of the
encoding has (a 2-bit slot is a `Reg`, an operand byte is a `Byte`: 10_state.md R20, 30_encoding.md R74), so there
is no check on a term that could fail and statements about instructions need no such hypothesis.

PROGRAM IMAGES are checked: 20_memory.md R46, 60_exceptions.md R173. -/

namespace Sys2Proof

/-- A program image the loader accepts: at most 128 bytes; length 0 is legal (R46), exactly 128 is accepted and
longer is `ProgramTooLarge` (R173). -/
def imageWf (image : List Byte) : Bool := decide (image.length ≤ Config.imageMax)

end Sys2Proof
end

