-- ==== Sys2Proof/Decode.lean ====
section
/-! DEFINITION. The decoder, total on any bytes and rejecting by name, and after it the encoder
(30_encoding.md R70 to R84, spec/opcode_table.json). -/

namespace Sys2Proof

/-- The slot a 2-bit register field names (R20, R74). -/
def Reg.ofBits (b : BitVec 2) : Reg :=
  if b = 0#2 then .r0 else if b = 1#2 then .r1 else if b = 2#2 then .r2 else .r3

/-- The 2-bit field that names a slot (R20, R74). -/
def Reg.bits : Reg → BitVec 2
  | .r0 => 0#2
  | .r1 => 1#2
  | .r2 => 2#2
  | .r3 => 3#2

/-- `op[3:2]`: the destination field of formats RR and RK (R72). -/
def fieldHi (op : Byte) : Reg := .ofBits (op.extractLsb' 2 2)

/-- `op[1:0]`: the register field of formats RR, ST, ID, LG, XG (R72). -/
def fieldLo (op : Byte) : Reg := .ofBits (op.extractLsb' 0 2)

/-- One row of the opcode table. `pat` and `mask` select it (`op & mask = pat`), `ignored` holds the opcode bits of
R76, `two` says that an operand byte follows (R75), `build` reads the fields from the opcode byte and the operand
byte. -/
structure OpRow where
  pat     : Byte
  mask    : Byte
  ignored : Byte
  two     : Bool
  build   : Byte → Byte → Instr

/-- Families 0x0 to 0x4 (R100 to R107, R120, R121). -/
def rowsMove : List OpRow :=
  [ ⟨0x00#8, 0xF0#8, 0x00#8, false, fun op _ => .movRR (fieldHi op) (fieldLo op)⟩,
    ⟨0x10#8, 0xF3#8, 0x00#8, true,  fun op b => .movRI (fieldHi op) b⟩,
    ⟨0x11#8, 0xF3#8, 0x00#8, true,  fun op b => .movRM (fieldHi op) b⟩,
    ⟨0x12#8, 0xF3#8, 0x00#8, false, fun op _ => .movRAcc (fieldHi op)⟩,
    ⟨0x13#8, 0xF3#8, 0x00#8, false, fun op _ => .movRPc (fieldHi op)⟩,
    ⟨0x20#8, 0xF0#8, 0x0C#8, true,  fun op b => .movMR b (fieldLo op)⟩,
    ⟨0x30#8, 0xF1#8, 0x0E#8, true,  fun _ b => .movAccI b⟩,
    ⟨0x31#8, 0xF1#8, 0x0E#8, true,  fun _ b => .movAccM b⟩,
    ⟨0x40#8, 0xF4#8, 0x08#8, false, fun op _ => .incR (fieldLo op)⟩,
    ⟨0x44#8, 0xF4#8, 0x08#8, false, fun op _ => .decR (fieldLo op)⟩ ]

/-- Family 0x5, the sixteen encodings of R142. -/
def rowsJump : List OpRow :=
  [ ⟨0x50#8, 0xFF#8, 0x00#8, true, fun _ b => .jnc b⟩,
    ⟨0x51#8, 0xFF#8, 0x00#8, true, fun _ b => .jns b⟩,
    ⟨0x52#8, 0xFF#8, 0x00#8, true, fun _ b => .jnz b⟩,
    ⟨0x53#8, 0xFF#8, 0x00#8, true, fun _ b => .jnp b⟩,
    ⟨0x54#8, 0xFF#8, 0x00#8, true, fun _ b => .jc b⟩,
    ⟨0x55#8, 0xFF#8, 0x00#8, true, fun _ b => .js b⟩,
    ⟨0x56#8, 0xFF#8, 0x00#8, true, fun _ b => .jz b⟩,
    ⟨0x57#8, 0xFF#8, 0x00#8, true, fun _ b => .jp b⟩,
    ⟨0x58#8, 0xFF#8, 0x00#8, true, fun _ b => .jcD b⟩,
    ⟨0x59#8, 0xFF#8, 0x00#8, true, fun _ b => .jsD b⟩,
    ⟨0x5A#8, 0xFF#8, 0x00#8, true, fun _ b => .jzD b⟩,
    ⟨0x5B#8, 0xFF#8, 0x00#8, true, fun _ b => .jpD b⟩,
    ⟨0x5C#8, 0xFF#8, 0x00#8, true, fun _ b => .jncD b⟩,
    ⟨0x5D#8, 0xFF#8, 0x00#8, true, fun _ b => .jnsD b⟩,
    ⟨0x5E#8, 0xFF#8, 0x00#8, true, fun _ b => .jnzD b⟩,
    ⟨0x5F#8, 0xFF#8, 0x00#8, true, fun _ b => .jnpD b⟩ ]

/-- Families 0x6 to 0xB (R122 to R131). -/
def rowsAlu : List OpRow :=
  [ ⟨0x60#8, 0xF1#8, 0x0E#8, false, fun _ _ => .decAcc⟩,
    ⟨0x61#8, 0xF1#8, 0x0E#8, false, fun _ _ => .incAcc⟩,
    ⟨0x70#8, 0xF0#8, 0x0F#8, false, fun _ _ => .clrAcc⟩,
    ⟨0x80#8, 0xFC#8, 0x00#8, false, fun op _ => .andAcc (fieldLo op)⟩,
    ⟨0x84#8, 0xFC#8, 0x00#8, false, fun op _ => .orAcc (fieldLo op)⟩,
    ⟨0x88#8, 0xFC#8, 0x03#8, false, fun _ _ => .notAcc⟩,
    ⟨0x8C#8, 0xFC#8, 0x00#8, false, fun op _ => .xorAcc (fieldLo op)⟩,
    ⟨0x90#8, 0xF0#8, 0x0F#8, false, fun _ _ => .nop9⟩,
    ⟨0xA0#8, 0xF0#8, 0x0F#8, false, fun _ _ => .nopA⟩,
    ⟨0xB0#8, 0xF0#8, 0x0F#8, false, fun _ _ => .nopB⟩ ]

/-- Families 0xC to 0xF (R143, R144, R108, R160 to R165). -/
def rowsControl : List OpRow :=
  [ ⟨0xC0#8, 0xF1#8, 0x0E#8, false, fun _ _ => .ret⟩,
    ⟨0xC1#8, 0xF1#8, 0x0E#8, true,  fun _ b => .call b⟩,
    ⟨0xD0#8, 0xF0#8, 0x0C#8, false, fun op _ => .xchg (fieldLo op)⟩,
    ⟨0xE0#8, 0xF3#8, 0x0C#8, false, fun _ _ => .clc⟩,
    ⟨0xE1#8, 0xF3#8, 0x0C#8, false, fun _ _ => .stc⟩,
    ⟨0xE2#8, 0xF3#8, 0x0C#8, false, fun _ _ => .clz⟩,
    ⟨0xE3#8, 0xF3#8, 0x0C#8, false, fun _ _ => .stz⟩,
    ⟨0xF0#8, 0xF0#8, 0x0F#8, false, fun _ _ => .reset⟩ ]

/-- The opcode table: 44 rows, and each of the 256 opcode bytes selects exactly one (R77, R81). -/
def opTable : List OpRow := rowsMove ++ rowsJump ++ rowsAlu ++ rowsControl

/-- `op` selects `row`: `op & mask = match`. -/
def OpRow.selects (row : OpRow) (op : Byte) : Bool := op &&& row.mask == row.pat

/-- The row an opcode byte selects. -/
def lookup (op : Byte) : Option OpRow := opTable.find? (fun row => row.selects op)

/-- The row's ignored bits (R76) are clear in `op`: the canonical encoding (R84). -/
def OpRow.canonical (row : OpRow) (op : Byte) : Bool := op &&& row.ignored == 0#8

/-- The non-canonical bytes that P_NONCANON = `refuse` accepts all the same: by R84 those of families 0x0, 0x1, 0x5 and
0x8 (only 0x89 to 0x8B, NOT ACC, are such bytes), by R76 none. -/
def RefuseRule.accepts (rule : RefuseRule) (op : Byte) : Bool :=
  match rule with
  | .r84 =>
    let f := op.extractLsb' 4 4
    f == 0x0#4 || f == 0x1#4 || f == 0x5#4 || f == 0x8#4
  | .r76 => false

/-- Why a byte string is no instruction. -/
inductive DecodeRefusal where
  /-- There is no opcode byte. Raised by `decodeWith` on the empty list only; a fetch never gives one. Safe. -/
  | noOpcode
  /-- The operand byte of a two-byte instruction is missing. Raised by `decodeWith` on a list of one byte; a fetch
  never gives one. Safe. -/
  | noOperand (op : Byte)
  /-- The byte selects no row. Unreachable: every byte selects one (R77). Safe. -/
  | noRow (op : Byte)
  /-- The byte has an ignored bit set, P_NONCANON is `refuse`, which is not the default, and the rule taken (R84 or R76)
  does not accept the byte. Safe. -/
  | nonCanonical (op : Byte)
  deriving DecidableEq, Repr

/-- What the bytes at the program counter are: an instruction and the bytes after it; a one-byte no-op (a
non-canonical byte under P_NONCANON = nop, R76); or a refusal. -/
inductive Decoded where
  | instr (i : Instr) (rest : List Byte)
  | noop (op : Byte) (rest : List Byte)
  | refuse (why : DecodeRefusal)
  deriving DecidableEq, Repr

/-- Take the operand byte where the row has one (R75) and build the instruction. -/
def OpRow.read (row : OpRow) (op : Byte) (rest : List Byte) : Decoded :=
  match row.two, rest with
  | false, rest      => .instr (row.build op 0#8) rest
  | true,  b :: rest => .instr (row.build op b) rest
  | true,  []        => .refuse (.noOperand op)

/-- Decode under a value of P_NONCANON: the opcode byte alone selects the row (R70, R80). -/
def decodeWith (nc : NonCanon) : List Byte → Decoded
  | []         => .refuse .noOpcode
  | op :: rest =>
    match lookup op with
    | none     => .refuse (.noRow op)
    | some row =>
      if row.canonical op then row.read op rest
      else
        match nc with
        | .ignore => row.read op rest
        | .nop    => .noop op rest
        | .refuse rule => if rule.accepts op then row.read op rest else .refuse (.nonCanonical op)

/-- Decode with the machine's parameters. -/
def decode (bytes : List Byte) : Decoded := decodeWith Machine.params.nonCanon bytes

/-- The instruction's length in bytes (R75). A jump is two bytes long taken or not. -/
def Instr.length : Instr → Nat
  | .movRR _ _ => 1 | .movRI _ _ => 2 | .movRM _ _ => 2 | .movRAcc _ => 1 | .movRPc _ => 1
  | .movMR _ _ => 2 | .movAccI _ => 2 | .movAccM _ => 2 | .incR _ => 1 | .decR _ => 1
  | .jnc _ => 2 | .jns _ => 2 | .jnz _ => 2 | .jnp _ => 2
  | .jc _ => 2 | .js _ => 2 | .jz _ => 2 | .jp _ => 2
  | .jcD _ => 2 | .jsD _ => 2 | .jzD _ => 2 | .jpD _ => 2
  | .jncD _ => 2 | .jnsD _ => 2 | .jnzD _ => 2 | .jnpD _ => 2
  | .decAcc => 1 | .incAcc => 1 | .clrAcc => 1
  | .andAcc _ => 1 | .orAcc _ => 1 | .notAcc => 1 | .xorAcc _ => 1
  | .nop9 => 1 | .nopA => 1 | .nopB => 1
  | .ret => 1 | .call _ => 2 | .xchg _ => 1
  | .clc => 1 | .stc => 1 | .clz => 1 | .stz => 1 | .reset => 1

/-- `Length(op)`, the formula of R75 over the opcode byte alone. -/
def opLength (op : Byte) : Nat :=
  let f := op.extractLsb' 4 4
  if f = 0x1#4 ∧ op.getLsbD 1 = false then 2
  else if f = 0x2#4 then 2
  else if f = 0x3#4 then 2
  else if f = 0x5#4 then 2
  else if f = 0xC#4 ∧ op.getLsbD 0 = true then 2
  else 1

/-! ### The encoder -/

/-- A slot number as a byte, for the sums of R82. -/
def Reg.byte (r : Reg) : Byte := r.bits.setWidth 8

/-- The canonical encoding, from the table of R82 (R84: what an assembler emits). -/
def encode : Instr → List Byte
  | .movRR d r   => [0x00#8 + 4#8 * d.byte + r.byte]
  | .movRI d v   => [0x10#8 + 4#8 * d.byte, v]
  | .movRM d v   => [0x11#8 + 4#8 * d.byte, v]
  | .movRAcc d   => [0x12#8 + 4#8 * d.byte]
  | .movRPc d    => [0x13#8 + 4#8 * d.byte]
  | .movMR v r   => [0x20#8 + r.byte, v]
  | .movAccI v   => [0x30#8, v]
  | .movAccM v   => [0x31#8, v]
  | .incR r      => [0x40#8 + r.byte]
  | .decR r      => [0x44#8 + r.byte]
  | .jnc v       => [0x50#8, v]
  | .jns v       => [0x51#8, v]
  | .jnz v       => [0x52#8, v]
  | .jnp v       => [0x53#8, v]
  | .jc v        => [0x54#8, v]
  | .js v        => [0x55#8, v]
  | .jz v        => [0x56#8, v]
  | .jp v        => [0x57#8, v]
  | .jcD v       => [0x58#8, v]
  | .jsD v       => [0x59#8, v]
  | .jzD v       => [0x5A#8, v]
  | .jpD v       => [0x5B#8, v]
  | .jncD v      => [0x5C#8, v]
  | .jnsD v      => [0x5D#8, v]
  | .jnzD v      => [0x5E#8, v]
  | .jnpD v      => [0x5F#8, v]
  | .decAcc      => [0x60#8]
  | .incAcc      => [0x61#8]
  | .clrAcc      => [0x70#8]
  | .andAcc r    => [0x80#8 + r.byte]
  | .orAcc r     => [0x84#8 + r.byte]
  | .notAcc      => [0x88#8]
  | .xorAcc r    => [0x8C#8 + r.byte]
  | .nop9        => [0x90#8]
  | .nopA        => [0xA0#8]
  | .nopB        => [0xB0#8]
  | .ret         => [0xC0#8]
  | .call v      => [0xC1#8, v]
  | .xchg r      => [0xD0#8 + r.byte]
  | .clc         => [0xE0#8]
  | .stc         => [0xE1#8]
  | .clz         => [0xE2#8]
  | .stz         => [0xE3#8]
  | .reset       => [0xF0#8]

/-! ### The host's entry -/

/-- The bytes of an instruction whose bits are `w`, numbered as spec/opcode_table.json numbers them: the opcode byte is
bits 7..0, the operand byte bits 15..8, every bit from `nbits` up is 0. The longest instruction has two bytes. -/
def tableBytes (nbits w : Nat) : List Byte :=
  let v := w % 2 ^ nbits
  [BitVec.ofNat 8 v, BitVec.ofNat 8 (v / 256)]

/-- The instruction the decoder reads from those bytes. -/
def decodeTableWord (nbits w : Nat) : Option Instr :=
  match decode (tableBytes nbits w) with
  | .instr i _ => some i
  | .noop _ _  => none
  | .refuse _  => none

end Sys2Proof
end

