-- ==== Sys2Proof/Machine/State.lean ====
section
/-! DEFINITION. The whole architectural state (10_state.md R36), what a step can end with, and the state right
after construction or reset (R35). -/

namespace Sys2Proof.Machine

/-- The four general registers `x[0]` to `x[3]` (10_state.md R20; host names AX, BX, CX, DX in this order, R21). -/
structure Regs where
  r0 : Byte
  r1 : Byte
  r2 : Byte
  r3 : Byte
  deriving DecidableEq, Repr

/-- The four flags (10_state.md R26). They have no positions in a byte and no instruction reads them as one. -/
structure Flags where
  cf : Bool
  zf : Bool
  sf : Bool
  pf : Bool
  deriving DecidableEq, Repr

/-- The 256 cells (10_state.md R32) as a list of (address, byte), each address at most once, in rising order, without
the cells that hold 0x00: a cell not listed reads 0x00, the value "all other cells start" with (20_memory.md R46). -/
abbrev Memory := List Host.Cell

/-- The canonical form above a lower bound: addresses strictly rising from `lo`, below 256, no listed 0x00. -/
def Memory.wfFrom (lo : Nat) : Memory → Bool
  | [] => true
  | (a, v) :: rest =>
    decide (lo ≤ a) && decide (a < Config.memSize) && (v != 0#8) && Memory.wfFrom (a + 1) rest

/-- The canonical form: equal memories are equal data. -/
def Memory.wf (m : Memory) : Bool := Memory.wfFrom 0 m

/-- The complete architectural state: R36's tuple and nothing else. -/
structure State where
  x     : Regs
  acc   : Byte
  pc    : Byte
  ct    : Byte
  flags : Flags
  mem   : Memory
  deriving DecidableEq, Repr

/-- The faults a step can end with (60_exceptions.md R170, R175: the closed enumeration). -/
inductive Fault where
  /-- A store to the program partition (60_exceptions.md R171): raised by MOV [a],Rs with `a < 0x80`, and by the
  host's own call of the restricted write port. It carries the address; the state is as before the step (R176).
  Safe: it is the spec's own outcome. -/
  | protectedRegion (a : Byte)
  deriving DecidableEq, Repr

/-- The reasons for which the model gives a step no meaning. Under the default parameters none of them is ever
answered (00_scope.md R10: "no instruction hangs, waits or is refused by the hardware"). -/
inductive Refusal where
  /-- An instruction that has no meaning yet. Raised by `exec`'s refused arms, of which there are none. Safe. -/
  | notModelled (mnemonic : String)
  /-- The bytes at PC decode to nothing. Raised by `step` only if P_NONCANON is `refuse` (30_encoding.md R76,
  R84), which is not the default. Safe. -/
  | undecodable (why : DecodeRefusal)
  deriving DecidableEq, Repr

/-- The state right after construction from the image of length 0 (70_reset_and_hazards.md R204, 20_memory.md R46) and
right after an engine reset of it (10_state.md R35): every register, flag, PC, CT and cell is 0. -/
def State.reset : State where
  x     := ⟨0#8, 0#8, 0#8, 0#8⟩
  acc   := 0#8
  pc    := 0#8
  ct    := 0#8
  flags := ⟨false, false, false, false⟩
  mem   := []

end Sys2Proof.Machine
end

