-- ==== Sys2Proof/Machine/Ops.lean ====
section
/-! DEFINITION. The named operations over registers and memory: the ports of the memory block (20_memory.md R42 to
R46), the fetch primitive (30_encoding.md R73), engine reset (70_reset_and_hazards.md R200) and the raising of a fault
(00_scope.md R10). -/

namespace Sys2Proof.Machine

/-! ### Registers (00_scope.md R8) -/

/-- `x[i]`. -/
def Regs.get (x : Regs) : Reg → Byte
  | .r0 => x.r0
  | .r1 => x.r1
  | .r2 => x.r2
  | .r3 => x.r3

/-- `x[i] <- v`. -/
def Regs.set (x : Regs) (i : Reg) (v : Byte) : Regs :=
  match i with
  | .r0 => { x with r0 := v }
  | .r1 => { x with r1 := v }
  | .r2 => { x with r2 := v }
  | .r3 => { x with r3 := v }

/-- `x[i]` of a state. -/
def State.reg (s : State) (i : Reg) : Byte := s.x.get i

/-- `x[i] <- v`. -/
def State.setReg (s : State) (i : Reg) (v : Byte) : State := { s with x := s.x.set i v }

/-- `ACC <- v`. -/
def State.setAcc (s : State) (v : Byte) : State := { s with acc := v }

/-- `CT <- v`. -/
def State.setCt (s : State) (v : Byte) : State := { s with ct := v }

/-- `pc <- v`. -/
def State.setPc (s : State) (v : Byte) : State := { s with pc := v }

/-- The PC's advance past `n` fetched bytes, modulo 256 (10_state.md R24). -/
def State.advance (s : State) (n : Byte) : State := { s with pc := s.pc + n }

/-- The flags replaced. -/
def State.setFlags (s : State) (f : Flags) : State := { s with flags := f }

/-- The memory replaced. -/
def State.setMem (s : State) (m : Memory) : State := { s with mem := m }

/-! ### The cells -/

/-- `M[a]`; a cell not listed holds 0x00. -/
def Memory.read (m : Memory) (a : Nat) : Byte :=
  match m with
  | [] => 0#8
  | (k, v) :: rest => if k = a then v else Memory.read rest a

/-- Remove every entry of address `a`: the cell then reads 0x00. -/
def Memory.erase (m : Memory) (a : Nat) : Memory :=
  match m with
  | [] => []
  | (k, v) :: rest => if k = a then Memory.erase rest a else (k, v) :: Memory.erase rest a

/-- Put an entry at its place in the rising order. -/
def Memory.insert (m : Memory) (a : Nat) (v : Byte) : Memory :=
  match m with
  | [] => [(a, v)]
  | (k, w) :: rest => if a < k then (a, v) :: (k, w) :: rest else (k, w) :: Memory.insert rest a v

/-- `M[a] <- v`, keeping the canonical form: a cell that becomes 0x00 is not listed. -/
def Memory.write (m : Memory) (a : Nat) (v : Byte) : Memory :=
  if v = 0#8 then m.erase a else (m.erase a).insert a v

/-- `M[c] <- 0` for every `c` in [lo, 256). -/
def Memory.clearFrom (m : Memory) (lo : Nat) : Memory :=
  match m with
  | [] => []
  | (k, v) :: rest => if k < lo then (k, v) :: Memory.clearFrom rest lo else Memory.clearFrom rest lo

/-- The memory block's reset port (20_memory.md R45): `clearProgram = false` zeroes [128, 256), `true` zeroes all. -/
def Memory.resetPort (m : Memory) (clearProgram : Bool) : Memory :=
  if clearProgram then m.clearFrom 0 else m.clearFrom Config.partBase

/-- The cells of an image placed from address `a` up (20_memory.md R46: byte `i` of the image goes to cell `i`). -/
def Memory.ofImageFrom (a : Nat) : List Byte → Memory
  | [] => []
  | b :: rest =>
    if b = 0#8 then Memory.ofImageFrom (a + 1) rest else (a, b) :: Memory.ofImageFrom (a + 1) rest

/-- The memory built from a program image; all other cells are 0x00 (R46). -/
def Memory.ofImage (image : List Byte) : Memory := Memory.ofImageFrom 0 image

/-! ### The ports -/

/-- The read port (20_memory.md R42): total, no effect, no partition check. -/
def State.readByte (s : State) (a : Byte) : Byte := s.mem.read a.toNat

/-- The force-write port (20_memory.md R44): any cell. Used by the host and, behind the check, by the write port. -/
def State.forceWrite (s : State) (a v : Byte) : State := s.setMem (s.mem.write a.toNat v)

/-- The restricted write port, the partition enforcer (20_memory.md R43, 00_scope.md R9): the check is on the address
alone, and below 0x80 nothing is written. -/
def State.restrictedWrite (s : State) (a v : Byte) : Except Fault State :=
  if a < 0x80#8 then .error (.protectedRegion a) else .ok (s.forceWrite a v)

/-- The memory reset port applied to the machine's memory alone (20_memory.md R45, 92_eei_decisions.md D24). -/
def State.memReset (s : State) (clearProgram : Bool) : State := s.setMem (s.mem.resetPort clearProgram)

/-- Engine reset (70_reset_and_hazards.md R200), the one operation behind the host's `reset()` and the RESET
instruction; `clearProgram` is P_RESET_CLEARS_PROGRAM (R201). -/
def State.engineReset (s : State) (clearProgram : Bool) : State :=
  State.reset.setMem (s.mem.resetPort clearProgram)

/-- `raise E` (00_scope.md R10): the step ends at once; nothing it did is kept. There is no trap entry: nothing is
saved and control goes nowhere (60_exceptions.md R179). -/
def raise (f : Fault) : Host.Outcome State Fault Refusal := .fault f

/-! ### Fetch -/

/-- `Fetch8()` (30_encoding.md R73): the byte at PC through the read port, and PC advanced by 1 modulo 256. -/
def State.fetch8 (s : State) : Byte × State := (s.readByte s.pc, s.advance 1#8)

/-- The bytes an instruction at PC can have: two calls of `Fetch8()`, opcode byte first. A read has no effect (R55),
so looking at the second byte of a one-byte instruction changes nothing. -/
def State.fetchBytes (s : State) : List Byte :=
  let first := s.fetch8
  let second := first.2.fetch8
  [first.1, second.1]

/-- Fetch and decode at PC (30_encoding.md R80), under a value of P_NONCANON. -/
def State.fetchDecode (s : State) (nc : NonCanon) : Decoded := decodeWith nc s.fetchBytes

/-- The bytes stored at PC and after it, addresses modulo 256 (used by `withFetchWord`; no instruction does this). -/
def State.placeAt (s : State) (a : Byte) : List Byte → State
  | [] => s
  | b :: rest => (s.forceWrite a b).placeAt (a + 1#8) rest

end Sys2Proof.Machine
end

