-- ==== Sys2Proof/Machine/Operands.lean ====
section
/-! DEFINITION. Every operand form the spec gives (30_encoding.md R74): the slot number (`Reg`), the immediate and the
target (the operand byte as it is), the data address of a load, the data address of a store. -/

namespace Sys2Proof.Machine

/-- The data-address decoder of loads (20_memory.md R48): bit 7 is discarded and replaced by 1. -/
def dataAddr (a : Byte) : Byte := 0x80#8 ||| (a &&& 0x7F#8)

/-- The value a load reads: `MemRead(DataAddr(a), 1)` (R48). It cannot fault and never reads the program partition. -/
def State.loadByte (s : State) (a : Byte) : Byte := s.readByte (dataAddr a)

/-- The address a store presents to the restricted write port (20_memory.md R50): raw, or through the decoder if
P_STORE_ADDR is `masked`. -/
def storeAddr (mode : StoreAddr) (a : Byte) : Byte :=
  match mode with
  | .rawEnforced => a
  | .masked => dataAddr a

end Sys2Proof.Machine
end

