-- ==== Sys2Proof/Machine/Alu.lean ====
section
/-! DEFINITION. Increment, decrement, clear, logic and the stub families (41_alu.md, families 0x4, 0x6 to 0xB). Each
is one byte long, cannot fault, touches no memory and writes no flag (R133). -/

namespace Sys2Proof.Machine

/-- `inc(v) = (v + 1) mod 256` (R132): the carry is dropped and recorded nowhere. -/
def incByte (v : Byte) : Byte := v + 1#8

/-- `dec(v) = (v - 1) mod 256` (R132). -/
def decByte (v : Byte) : Byte := v - 1#8

/-- A one-byte instruction that puts `f x[r]` into `x[r]`. -/
def aluReg (f : Byte → Byte) (r : Reg) (s : State) : Host.Outcome State Fault Refusal :=
  .next ((s.advance 1#8).setReg r (f (s.reg r)))

/-- A one-byte instruction that puts `f ACC` into ACC. -/
def aluAcc (f : Byte → Byte) (s : State) : Host.Outcome State Fault Refusal :=
  .next ((s.advance 1#8).setAcc (f s.acc))

/-- A one-byte instruction that puts `f ACC x[r]` into ACC; `x[r]` is unchanged (D25). -/
def logicAcc (f : Byte → Byte → Byte) (r : Reg) (s : State) : Host.Outcome State Fault Refusal :=
  .next ((s.advance 1#8).setAcc (f s.acc (s.reg r)))

/-- A one-byte no-operation (30_encoding.md R78): nothing changes but PC. -/
def oneByteNop (s : State) : Host.Outcome State Fault Refusal := .next (s.advance 1#8)

/-- R120 `INC Rn`. -/
def execIncR (r : Reg) (s : State) : Host.Outcome State Fault Refusal := aluReg incByte r s

/-- R121 `DEC Rn`. -/
def execDecR (r : Reg) (s : State) : Host.Outcome State Fault Refusal := aluReg decByte r s

/-- R122 `INC ACC`. -/
def execIncAcc (s : State) : Host.Outcome State Fault Refusal := aluAcc incByte s

/-- R123 `DEC ACC`. -/
def execDecAcc (s : State) : Host.Outcome State Fault Refusal := aluAcc decByte s

/-- R124 `CLR ACC`. -/
def execClrAcc (s : State) : Host.Outcome State Fault Refusal := aluAcc (fun _ => 0#8) s

/-- R125 `AND ACC,Rs`. -/
def execAndAcc (r : Reg) (s : State) : Host.Outcome State Fault Refusal := logicAcc (fun p q => p &&& q) r s

/-- R126 `OR ACC,Rs`. -/
def execOrAcc (r : Reg) (s : State) : Host.Outcome State Fault Refusal := logicAcc (fun p q => p ||| q) r s

/-- R127 `NOT ACC`: no general register is read. -/
def execNotAcc (s : State) : Host.Outcome State Fault Refusal := aluAcc (fun v => ~~~v) s

/-- R128 `XOR ACC,Rs` under a value of P_LOGIC_OP3: exclusive OR, or nothing. -/
def execXorAccWith (mode : LogicOp3) (r : Reg) (s : State) : Host.Outcome State Fault Refusal :=
  match mode with
  | .xor => logicAcc (fun p q => p ^^^ q) r s
  | .nop => oneByteNop s

/-- R128 `XOR ACC,Rs`. -/
def execXorAcc (r : Reg) (s : State) : Host.Outcome State Fault Refusal := execXorAccWith params.logicOp3 r s

/-- R129 `NOP9`, the stub of family 0x9. -/
def execNop9 (s : State) : Host.Outcome State Fault Refusal := oneByteNop s

/-- R130 `NOPA`, the stub of family 0xA: no operand byte (D6). -/
def execNopA (s : State) : Host.Outcome State Fault Refusal := oneByteNop s

/-- R131 `NOPB`, the stub of family 0xB: no operand byte (D6). -/
def execNopB (s : State) : Host.Outcome State Fault Refusal := oneByteNop s

end Sys2Proof.Machine
end

