-- ==== Sys2Proof/Machine/Flags.lean ====
section
/-! DEFINITION. The flags: the one reader (the jump decision, 42_control.md R140) and the one writer beside reset
(family 0xE, 43_flags_system.md R160 to R163). No result of an operation sets a flag (10_state.md R27). -/

namespace Sys2Proof.Machine

/-- The flag a jump's `ff` field selects (R140; note the order CF, SF, ZF, PF). -/
def Flags.get (f : Flags) : FlagSel → Bool
  | .cf => f.cf
  | .sf => f.sf
  | .zf => f.zf
  | .pf => f.pf

/-- XNOR on two bits: 1 when they are equal (00_scope.md R7). -/
def bitXnor (a b : Bool) : Bool := a == b

/-- The jump decision `(F XNOR W) XOR D` (R140), `w` the polarity bit and `d` the direct bit. -/
def jumpTaken (f w d : Bool) : Bool := Bool.xor (bitXnor f w) d

/-- `CF <- v`: ZF, SF and PF are unchanged. -/
def State.setCf (s : State) (v : Bool) : State := s.setFlags { s.flags with cf := v }

/-- `ZF <- v`: CF, SF and PF are unchanged. -/
def State.setZf (s : State) (v : Bool) : State := s.setFlags { s.flags with zf := v }

end Sys2Proof.Machine
end

