-- ==== Sys2Proof/Machine/Control.lean ====
section
/-! DEFINITION. Control transfer (42_control.md, families 0x5, 0xC). No instruction here writes a flag, touches data
memory or can fault; a target is any byte, unmasked and unchecked (R145). -/

namespace Sys2Proof.Machine

/-- R141, the conditional absolute jump on flag `sel` with polarity bit `w` and direct bit `d`. Taken: `pc <- t`. Not
taken: past the target byte (P_JUMP_CONSUME = always), or past the opcode byte only (taken_only, C4). -/
def jumpWith (consume : JumpConsume) (sel : FlagSel) (w d : Bool) (t : Byte) (s : State) :
    Host.Outcome State Fault Refusal :=
  if jumpTaken (s.flags.get sel) w d then .next (s.setPc t)
  else
    match consume with
    | .always    => .next (s.advance 2#8)
    | .takenOnly => .next (s.advance 1#8)

/-- R142 `JNC t`, byte 0x50: D = 0, W = 0; taken when CF = 0. -/
def execJnc (t : Byte) (s : State) : Host.Outcome State Fault Refusal :=
  jumpWith params.jumpConsume .cf false false t s

/-- R142 `JNS t`, byte 0x51: D = 0, W = 0; taken when SF = 0. -/
def execJns (t : Byte) (s : State) : Host.Outcome State Fault Refusal :=
  jumpWith params.jumpConsume .sf false false t s

/-- R142 `JNZ t`, byte 0x52: D = 0, W = 0; taken when ZF = 0. -/
def execJnz (t : Byte) (s : State) : Host.Outcome State Fault Refusal :=
  jumpWith params.jumpConsume .zf false false t s

/-- R142 `JNP t`, byte 0x53: D = 0, W = 0; taken when PF = 0. -/
def execJnp (t : Byte) (s : State) : Host.Outcome State Fault Refusal :=
  jumpWith params.jumpConsume .pf false false t s

/-- R142 `JC t`, byte 0x54: D = 0, W = 1; taken when CF = 1. -/
def execJc (t : Byte) (s : State) : Host.Outcome State Fault Refusal :=
  jumpWith params.jumpConsume .cf true false t s

/-- R142 `JS t`, byte 0x55: D = 0, W = 1; taken when SF = 1. -/
def execJs (t : Byte) (s : State) : Host.Outcome State Fault Refusal :=
  jumpWith params.jumpConsume .sf true false t s

/-- R142 `JZ t`, byte 0x56: D = 0, W = 1; taken when ZF = 1. -/
def execJz (t : Byte) (s : State) : Host.Outcome State Fault Refusal :=
  jumpWith params.jumpConsume .zf true false t s

/-- R142 `JP t`, byte 0x57: D = 0, W = 1; taken when PF = 1. -/
def execJp (t : Byte) (s : State) : Host.Outcome State Fault Refusal :=
  jumpWith params.jumpConsume .pf true false t s

/-- R142 `JC.D t`, byte 0x58: D = 1, W = 0; taken when CF = 1. -/
def execJcD (t : Byte) (s : State) : Host.Outcome State Fault Refusal :=
  jumpWith params.jumpConsume .cf false true t s

/-- R142 `JS.D t`, byte 0x59: D = 1, W = 0; taken when SF = 1. -/
def execJsD (t : Byte) (s : State) : Host.Outcome State Fault Refusal :=
  jumpWith params.jumpConsume .sf false true t s

/-- R142 `JZ.D t`, byte 0x5A: D = 1, W = 0; taken when ZF = 1. -/
def execJzD (t : Byte) (s : State) : Host.Outcome State Fault Refusal :=
  jumpWith params.jumpConsume .zf false true t s

/-- R142 `JP.D t`, byte 0x5B: D = 1, W = 0; taken when PF = 1. -/
def execJpD (t : Byte) (s : State) : Host.Outcome State Fault Refusal :=
  jumpWith params.jumpConsume .pf false true t s

/-- R142 `JNC.D t`, byte 0x5C: D = 1, W = 1; taken when CF = 0. -/
def execJncD (t : Byte) (s : State) : Host.Outcome State Fault Refusal :=
  jumpWith params.jumpConsume .cf true true t s

/-- R142 `JNS.D t`, byte 0x5D: D = 1, W = 1; taken when SF = 0. -/
def execJnsD (t : Byte) (s : State) : Host.Outcome State Fault Refusal :=
  jumpWith params.jumpConsume .sf true true t s

/-- R142 `JNZ.D t`, byte 0x5E: D = 1, W = 1; taken when ZF = 0. -/
def execJnzD (t : Byte) (s : State) : Host.Outcome State Fault Refusal :=
  jumpWith params.jumpConsume .zf true true t s

/-- R142 `JNP.D t`, byte 0x5F: D = 1, W = 1; taken when PF = 0. -/
def execJnpD (t : Byte) (s : State) : Host.Outcome State Fault Refusal :=
  jumpWith params.jumpConsume .pf true true t s

/-- R143 `CALL t`: the return address, past the operand byte, goes to CT, whose old content is lost. -/
def execCall (t : Byte) (s : State) : Host.Outcome State Fault Refusal :=
  .next ((s.setCt (s.advance 2#8).pc).setPc t)

/-- R144 `RET` under a value of P_RET: nothing but PC, or `pc <- CT`. -/
def execRetWith (mode : RetMode) (s : State) : Host.Outcome State Fault Refusal :=
  match mode with
  | .nop     => oneByteNop s
  | .restore => .next (s.setPc s.ct)

/-- R144 `RET`. -/
def execRet (s : State) : Host.Outcome State Fault Refusal := execRetWith params.ret s

end Sys2Proof.Machine
end

