-- ==== Sys2Proof/Machine/DataMovement.lean ====
section
/-! DEFINITION. Data movement (40_data_movement.md, families 0x0, 0x1, 0x2, 0x3, 0xD). A meaning takes the state
before the step, `PC` at the opcode byte, and gives the state after it; none of these writes a flag (R109). -/

namespace Sys2Proof.Machine

/-- Write `v` to `x[d]`, the instruction being `n` bytes long. -/
def moveToReg (n : Byte) (d : Reg) (v : Byte) (s : State) : Host.Outcome State Fault Refusal :=
  .next ((s.advance n).setReg d v)

/-- Write `v` to ACC, the instruction being `n` bytes long. -/
def moveToAcc (n : Byte) (v : Byte) (s : State) : Host.Outcome State Fault Refusal :=
  .next ((s.advance n).setAcc v)

/-- A store through the restricted write port (20_memory.md R43, R50): the fault leaves no state (R176). -/
def storeWith (mode : StoreAddr) (a v : Byte) (s : State) : Host.Outcome State Fault Refusal :=
  match (s.advance 2#8).restrictedWrite (storeAddr mode a) v with
  | .ok t    => .next t
  | .error f => raise f

/-- R100 `MOV Rd,Rs`. -/
def execMovRR (d r : Reg) (s : State) : Host.Outcome State Fault Refusal :=
  moveToReg 1#8 d (s.reg r) s

/-- R101 `MOV Rd,#imm`. -/
def execMovRI (d : Reg) (imm : Byte) (s : State) : Host.Outcome State Fault Refusal :=
  moveToReg 2#8 d imm s

/-- R102 `MOV Rd,[a]`. -/
def execMovRM (d : Reg) (a : Byte) (s : State) : Host.Outcome State Fault Refusal :=
  moveToReg 2#8 d (s.loadByte a) s

/-- R103 `MOV Rd,ACC`. -/
def execMovRAcc (d : Reg) (s : State) : Host.Outcome State Fault Refusal :=
  moveToReg 1#8 d s.acc s

/-- R104 `MOV Rd,PC`: the PC already advanced past this one-byte instruction (D10). -/
def execMovRPc (d : Reg) (s : State) : Host.Outcome State Fault Refusal :=
  moveToReg 1#8 d (s.advance 1#8).pc s

/-- R105 `MOV [a],Rs`. -/
def execMovMR (a : Byte) (r : Reg) (s : State) : Host.Outcome State Fault Refusal :=
  storeWith params.storeAddr a (s.reg r) s

/-- R106 `MOV ACC,#imm`. -/
def execMovAccI (imm : Byte) (s : State) : Host.Outcome State Fault Refusal :=
  moveToAcc 2#8 imm s

/-- R107 `MOV ACC,[a]`. -/
def execMovAccM (a : Byte) (s : State) : Host.Outcome State Fault Refusal :=
  moveToAcc 2#8 (s.loadByte a) s

/-- R108 `XCHG ACC,Rn`: both old values are read before either is written. -/
def execXchg (r : Reg) (s : State) : Host.Outcome State Fault Refusal :=
  .next (((s.advance 1#8).setAcc (s.reg r)).setReg r s.acc)

end Sys2Proof.Machine
end

