-- ==== Sys2Proof/Machine/FlagSystem.lean ====
section
/-! DEFINITION. Flag and system instructions (43_flags_system.md, families 0xE, 0xF): one byte each, none can fault. -/

namespace Sys2Proof.Machine

/-- R160 `CLC`. -/
def execClc (s : State) : Host.Outcome State Fault Refusal := .next ((s.advance 1#8).setCf false)

/-- R161 `STC`. -/
def execStc (s : State) : Host.Outcome State Fault Refusal := .next ((s.advance 1#8).setCf true)

/-- R162 `CLZ`. -/
def execClz (s : State) : Host.Outcome State Fault Refusal := .next ((s.advance 1#8).setZf false)

/-- R163 `STZ`. -/
def execStz (s : State) : Host.Outcome State Fault Refusal := .next ((s.advance 1#8).setZf true)

/-- R165 `RESET` under a value of P_RESET_CLEARS_PROGRAM: exactly the host's `reset()` (R200); PC ends at 0. -/
def execResetWith (clearProgram : Bool) (s : State) : Host.Outcome State Fault Refusal :=
  .next (s.engineReset clearProgram)

/-- R165 `RESET`. -/
def execReset (s : State) : Host.Outcome State Fault Refusal := execResetWith params.resetClearsProgram s

end Sys2Proof.Machine
end

