-- ==== Sys2Proof/Machine/Dispatch.lean ====
section
/-! DEFINITION. The dispatch of 30_encoding.md R80: one arm per instruction, each one call of its meaning. -/

namespace Sys2Proof.Machine

def exec (i : Instr) (s : State) : Host.Outcome State Fault Refusal :=
  match i with
  | .movRR d r => Sys2Proof.Machine.execMovRR d r s
  | .movRI d imm => Sys2Proof.Machine.execMovRI d imm s
  | .movRM d a => Sys2Proof.Machine.execMovRM d a s
  | .movRAcc d => Sys2Proof.Machine.execMovRAcc d s
  | .movRPc d => Sys2Proof.Machine.execMovRPc d s
  | .movMR a r => Sys2Proof.Machine.execMovMR a r s
  | .movAccI imm => Sys2Proof.Machine.execMovAccI imm s
  | .movAccM a => Sys2Proof.Machine.execMovAccM a s
  | .incR r => Sys2Proof.Machine.execIncR r s
  | .decR r => Sys2Proof.Machine.execDecR r s
  | .jnc t => Sys2Proof.Machine.execJnc t s
  | .jns t => Sys2Proof.Machine.execJns t s
  | .jnz t => Sys2Proof.Machine.execJnz t s
  | .jnp t => Sys2Proof.Machine.execJnp t s
  | .jc t => Sys2Proof.Machine.execJc t s
  | .js t => Sys2Proof.Machine.execJs t s
  | .jz t => Sys2Proof.Machine.execJz t s
  | .jp t => Sys2Proof.Machine.execJp t s
  | .jcD t => Sys2Proof.Machine.execJcD t s
  | .jsD t => Sys2Proof.Machine.execJsD t s
  | .jzD t => Sys2Proof.Machine.execJzD t s
  | .jpD t => Sys2Proof.Machine.execJpD t s
  | .jncD t => Sys2Proof.Machine.execJncD t s
  | .jnsD t => Sys2Proof.Machine.execJnsD t s
  | .jnzD t => Sys2Proof.Machine.execJnzD t s
  | .jnpD t => Sys2Proof.Machine.execJnpD t s
  | .decAcc => Sys2Proof.Machine.execDecAcc s
  | .incAcc => Sys2Proof.Machine.execIncAcc s
  | .clrAcc => Sys2Proof.Machine.execClrAcc s
  | .andAcc r => Sys2Proof.Machine.execAndAcc r s
  | .orAcc r => Sys2Proof.Machine.execOrAcc r s
  | .notAcc => Sys2Proof.Machine.execNotAcc s
  | .xorAcc r => Sys2Proof.Machine.execXorAcc r s
  | .nop9 => Sys2Proof.Machine.execNop9 s
  | .nopA => Sys2Proof.Machine.execNopA s
  | .nopB => Sys2Proof.Machine.execNopB s
  | .ret => Sys2Proof.Machine.execRet s
  | .call t => Sys2Proof.Machine.execCall t s
  | .xchg r => Sys2Proof.Machine.execXchg r s
  | .clc => Sys2Proof.Machine.execClc s
  | .stc => Sys2Proof.Machine.execStc s
  | .clz => Sys2Proof.Machine.execClz s
  | .stz => Sys2Proof.Machine.execStz s
  | .reset => Sys2Proof.Machine.execReset s

end Sys2Proof.Machine
end

