-- ==== Sys2Proof/Machine/Step.lean ====
section
/-! DEFINITION. One step: fetch, decode, execute (30_encoding.md R80), atomic and complete (70_reset_and_hazards.md
R210). The meanings move the PC themselves. -/

namespace Sys2Proof.Machine

/-- Run what was decoded at PC: an instruction by `run`; a byte that is a one-byte no-op only under P_NONCANON = nop
(R76) by advancing PC; nothing else has a meaning. -/
def runDecoded (run : Instr → State → Host.Outcome State Fault Refusal) (d : Decoded) (s : State) :
    Host.Outcome State Fault Refusal :=
  match d with
  | .instr i _    => run i s
  | .noop _ _     => oneByteNop s
  | .refuse why   => .refused (.undecodable why)

/-- `step()`: exactly one instruction (R80). -/
def step (s : State) : Host.Outcome State Fault Refusal :=
  runDecoded exec (s.fetchDecode params.nonCanon) s

/-- `s` with the instruction whose table bits are `w` stored where `step` fetches: at PC, and its second byte at PC + 1
modulo 256 (R53). On this machine the fetch needs nothing else. -/
def State.withFetchWord (s : State) (nbits w : Nat) : State := s.placeAt s.pc (tableBytes nbits w)

end Sys2Proof.Machine
end

