-- ==== Sys2Proof/Machine/Variants.lean ====
section
/-! DEFINITION. The machine under ANY value of the seven parameters of 00_scope.md R6. `exec` and `step` are these at
`params` (proved in Laws/Variants.lean); every rule of the spec "says in its corner cases what the other value does",
and this is what it says. -/

namespace Sys2Proof.Machine

/-- One instruction under the parameters `p`. -/
def execWith (p : Params) (i : Instr) (s : State) : Host.Outcome State Fault Refusal :=
  match i with
  | .movRR d r => execMovRR d r s
  | .movRI d imm => execMovRI d imm s
  | .movRM d a => execMovRM d a s
  | .movRAcc d => execMovRAcc d s
  | .movRPc d => execMovRPc d s
  | .movMR a r => storeWith p.storeAddr a (s.reg r) s
  | .movAccI imm => execMovAccI imm s
  | .movAccM a => execMovAccM a s
  | .incR r => execIncR r s
  | .decR r => execDecR r s
  | .jnc t => jumpWith p.jumpConsume .cf false false t s
  | .jns t => jumpWith p.jumpConsume .sf false false t s
  | .jnz t => jumpWith p.jumpConsume .zf false false t s
  | .jnp t => jumpWith p.jumpConsume .pf false false t s
  | .jc t => jumpWith p.jumpConsume .cf true false t s
  | .js t => jumpWith p.jumpConsume .sf true false t s
  | .jz t => jumpWith p.jumpConsume .zf true false t s
  | .jp t => jumpWith p.jumpConsume .pf true false t s
  | .jcD t => jumpWith p.jumpConsume .cf false true t s
  | .jsD t => jumpWith p.jumpConsume .sf false true t s
  | .jzD t => jumpWith p.jumpConsume .zf false true t s
  | .jpD t => jumpWith p.jumpConsume .pf false true t s
  | .jncD t => jumpWith p.jumpConsume .cf true true t s
  | .jnsD t => jumpWith p.jumpConsume .sf true true t s
  | .jnzD t => jumpWith p.jumpConsume .zf true true t s
  | .jnpD t => jumpWith p.jumpConsume .pf true true t s
  | .decAcc => execDecAcc s
  | .incAcc => execIncAcc s
  | .clrAcc => execClrAcc s
  | .andAcc r => execAndAcc r s
  | .orAcc r => execOrAcc r s
  | .notAcc => execNotAcc s
  | .xorAcc r => execXorAccWith p.logicOp3 r s
  | .nop9 => execNop9 s
  | .nopA => execNopA s
  | .nopB => execNopB s
  | .ret => execRetWith p.ret s
  | .call t => execCall t s
  | .xchg r => execXchg r s
  | .clc => execClc s
  | .stc => execStc s
  | .clz => execClz s
  | .stz => execStz s
  | .reset => execResetWith p.resetClearsProgram s

/-- One step under the parameters `p` (30_encoding.md R80). -/
def stepWith (p : Params) (s : State) : Host.Outcome State Fault Refusal :=
  runDecoded (execWith p) (s.fetchDecode p.nonCanon) s

/-- The state the host finds after a faulted step (60_exceptions.md R176): the state before the step, or the same with
PC past the two bytes of the faulting store if P_FAULT_PC is `advanced`. -/
def afterFault (mode : FaultPc) (s : State) : State :=
  match mode with
  | .restored => s
  | .advanced => s.advance 2#8

/-- How one `step()` ended, for the host (10_state.md R36: `ok` or `fault E`; a refusal is the model's own). -/
inductive StepEnd where
  | ok
  | fault (f : Fault)
  | refused (r : Refusal)
  deriving DecidableEq, Repr

/-- `step()` as the host calls it (10_state.md R36): a state and how the step ended, in every case, so that a host can
go on after a fault (60_exceptions.md R176, R179). -/
def hostStep (p : Params) (s : State) : State × StepEnd :=
  match stepWith p s with
  | .next t    => (t, .ok)
  | .fault f   => (afterFault p.faultPc s, .fault f)
  | .refused r => (s, .refused r)

end Sys2Proof.Machine
end

