-- ==== Sys2Proof/Machine/HostPort.lean ====
section
/-! DEFINITION. The host interface (00_scope.md R12, 10_state.md R34, 20_memory.md R43 to R46, 60_exceptions.md R173,
70_reset_and_hazards.md R200 to R205): what the one agent besides the core can do, each BETWEEN steps (R63), and the
optional trace event of 30_encoding.md R85. -/

namespace Sys2Proof.Machine

/-- The state at construction from an image (70_reset_and_hazards.md R204): the reset state over the memory built from
it (20_memory.md R46). -/
def construct (image : List Byte) : State := State.reset.setMem (Memory.ofImage image)

/-- The snapshot of 10_state.md R34, AX to DX being slots 0 to 3 (R21) and IR the byte at PC (R30). -/
structure Snapshot where
  ax : Byte
  bx : Byte
  cx : Byte
  dx : Byte
  acc : Byte
  pc : Byte
  ct : Byte
  ir : Byte
  cf : Bool
  zf : Bool
  sf : Bool
  pf : Bool
  deriving DecidableEq, Repr

/-- Read the snapshot: no effect (R34). -/
def State.snapshot (s : State) : Snapshot where
  ax  := s.reg .r0
  bx  := s.reg .r1
  cx  := s.reg .r2
  dx  := s.reg .r3
  acc := s.acc
  pc  := s.pc
  ct  := s.ct
  ir  := s.readByte s.pc
  cf  := s.flags.cf
  zf  := s.flags.zf
  sf  := s.flags.sf
  pf  := s.flags.pf

/-- The engine as the host sees it (10_state.md R31, D16): `none` is Idle, no engine built yet; `some s` is Ready. -/
abbrev Engine := Option State

/-- The host's operations (R12), and its direct call of the restricted write port (60_exceptions.md R171). -/
inductive HostOp where
  | load (image : List Byte)
  | step
  | reset
  | memReset (clearProgram : Bool)
  | memWrite (a v : Byte)
  | forceWrite (a v : Byte)
  | memRead (a : Byte)
  | snapshot
  deriving DecidableEq, Repr

/-- What the host gets back. -/
inductive Reply where
  /-- Done, with nothing to report. -/
  | done
  /-- How a `step()` ended, or a refused direct write. -/
  | ended (e : StepEnd)
  /-- The byte read. -/
  | byte (v : Byte)
  /-- The snapshot read. -/
  | snap (v : Snapshot)
  /-- The loader's refusal of an image over 128 bytes: no memory and no engine is built (60_exceptions.md R173). -/
  | programTooLarge
  /-- An operation on an engine that does not exist: the spec gives it no behaviour (10_state.md R31, U12: stuck).
  Safe: nothing is claimed of it. -/
  | idle
  deriving DecidableEq, Repr

/-- A host operation on an engine that is Ready. -/
def hostOnReady (p : Params) (op : HostOp) (s : State) : State × Reply :=
  match op with
  | .load image       => if imageWf image then (construct image, .done) else (s, .programTooLarge)
  | .step             => ((hostStep p s).1, .ended (hostStep p s).2)
  | .reset            => (s.engineReset p.resetClearsProgram, .done)
  | .memReset clear   => (s.memReset clear, .done)
  | .memWrite a v     =>
    match s.restrictedWrite a v with
    | .ok t    => (t, .done)
    | .error f => (s, .ended (.fault f))
  | .forceWrite a v   => (s.forceWrite a v, .done)
  | .memRead a        => (s, .byte (s.readByte a))
  | .snapshot         => (s, .snap s.snapshot)

/-- A host operation on an engine that is Idle: only `load` does anything (70_reset_and_hazards.md R205). -/
def hostOnIdle (op : HostOp) : Engine × Reply :=
  match op with
  | .load image     => if imageWf image then (some (construct image), .done) else (none, .programTooLarge)
  | .step           => (none, .idle)
  | .reset          => (none, .idle)
  | .memReset _     => (none, .idle)
  | .memWrite _ _   => (none, .idle)
  | .forceWrite _ _ => (none, .idle)
  | .memRead _      => (none, .idle)
  | .snapshot       => (none, .idle)

/-- A host operation (R12). -/
def hostApply (p : Params) (op : HostOp) (e : Engine) : Engine × Reply :=
  match e with
  | none   => hostOnIdle op
  | some s => (some (hostOnReady p op s).1, (hostOnReady p op s).2)

/-- The encodings an optional trace may report (30_encoding.md R85): the first four rows of R78, that is families 0x9,
0xA, 0xB and RET. -/
def ignoredOpcode (op : Byte) : Bool :=
  op.extractLsb' 4 4 == 0x9#4 || op.extractLsb' 4 4 == 0xA#4 || op.extractLsb' 4 4 == 0xB#4 ||
    (op.extractLsb' 4 4 == 0xC#4 && !op.getLsbD 0)

/-- The event `ignored(op, PC')` the next step would emit (R85). It is no state and no rule reads it. -/
def ignoredEvent (s : State) : Option (Byte × Byte) :=
  if ignoredOpcode (s.readByte s.pc) then some (s.readByte s.pc, s.pc) else none

end Sys2Proof.Machine
end

