-- ==== Sys2Proof/Safety.lean ====
section
/-! DEFINITION. What counts as a safe run, and the words statements use: what two states have in common, which
instruction writes what (the spec's own lists of writers), and the invariants of the machine. -/

namespace Sys2Proof.Machine

/-- Every cell reads the same in both states. -/
def SameMem (s t : State) : Prop := ∀ a : Byte, t.readByte a = s.readByte a

/-- Every cell but `a` reads the same in both states. -/
def SameMemBut (a : Byte) (s t : State) : Prop := ∀ b : Byte, b ≠ a → t.readByte b = s.readByte b

/-- Every general register holds the same in both states. -/
def SameRegs (s t : State) : Prop := ∀ k : Reg, t.reg k = s.reg k

/-- Every general register but `d` holds the same in both states. -/
def SameRegsBut (d : Reg) (s t : State) : Prop := ∀ k : Reg, k ≠ d → t.reg k = s.reg k

/-- Only general register `d` and PC may differ. -/
def OnlyRegAndPc (d : Reg) (s t : State) : Prop :=
  SameRegsBut d s t ∧ t.acc = s.acc ∧ t.ct = s.ct ∧ t.flags = s.flags ∧ SameMem s t

/-- Only ACC and PC may differ. -/
def OnlyAccAndPc (s t : State) : Prop :=
  SameRegs s t ∧ t.ct = s.ct ∧ t.flags = s.flags ∧ SameMem s t

/-- Only PC may differ. -/
def OnlyPc (s t : State) : Prop :=
  SameRegs s t ∧ t.acc = s.acc ∧ t.ct = s.ct ∧ t.flags = s.flags ∧ SameMem s t

/-- The memory keeps its canonical form. -/
abbrev State.MemCanonical (s : State) : Prop := s.mem.wf = true

/-- SF and PF are 0 (10_state.md R28: so in every state reached from reset). -/
abbrev State.SignParityClear (s : State) : Prop := s.flags.sf = false ∧ s.flags.pf = false

/-- A step is safe when it gives a next state: it neither faults nor is refused. -/
def StepSafe (s : State) : Prop := ∃ t, step s = .next t

end Sys2Proof.Machine
end

