-- ==== Sys2Proof/Certificates/Slice0/Obligations.lean ====
section
/-! DEFINITION. The statements for the provers. Each docstring names the rule of spec/ it formalises; where a rule is
the spec's own decision or derivation (`[decision: ...]`, `[derived: ...]`), it says so and names the log entry of
notes/assumptions/. Opcode bytes are written bit by bit from the formats of 30_encoding.md R72: a field is joined to the
fixed bits with `++`, bit 7 on the left. -/

open Sys2Proof Sys2Proof.Machine

namespace Sys2Proof.Statements

/-- Jump `i` is two bytes long and goes to its target exactly when `taken`; nothing but PC changes. -/
def JumpsWhen (i : Byte → Instr) (taken : State → Bool) : Prop :=
  ∀ (t : Byte) (s : State), ∃ u, exec (i t) s = .next u ∧ OnlyPc s u ∧ u.pc = if taken s then t else s.pc + 2#8

/-- Byte `op` with any target byte decodes to jump `i`. -/
def JumpByte (op : Byte) (i : Byte → Instr) : Prop :=
  ∀ (t : Byte) (rest : List Byte), decode (op :: t :: rest) = .instr (i t) rest

/-- Byte `op` decodes to the one-byte instruction `i`. -/
def OneByte (op : Byte) (i : Instr) : Prop := ∀ rest : List Byte, decode (op :: rest) = .instr i rest

/-- Byte `op` and the operand byte after it decode to the two-byte instruction `i`. -/
def TwoByte (op : Byte) (i : Byte → Instr) : Prop :=
  ∀ (b : Byte) (rest : List Byte), decode (op :: b :: rest) = .instr (i b) rest

/-- Instruction `i` gives a next state with PC past `n` bytes in which ACC is `acc s` and nothing else changed. -/
def PutsInAcc (n : Byte) (i : Instr) (acc : State → Byte) : Prop :=
  ∀ s : State, ∃ t, exec i s = .next t ∧ t.acc = acc s ∧ t.pc = s.pc + n ∧ OnlyAccAndPc s t

/-- Instruction `i` gives a next state with PC past `n` bytes in which `x[d]` is `v s` and nothing else changed. -/
def PutsInReg (n : Byte) (d : Reg) (i : Instr) (v : State → Byte) : Prop :=
  ∀ s : State, ∃ t, exec i s = .next t ∧ t.reg d = v s ∧ t.pc = s.pc + n ∧ OnlyRegAndPc d s t

/-- Instruction `i` gives a next state with PC past one byte and nothing else changed. -/
def DoesNothing (i : Instr) : Prop :=
  ∀ s : State, ∃ t, exec i s = .next t ∧ t.pc = s.pc + 1#8 ∧ OnlyPc s t

/-- Instruction `i` gives a next state with PC past one byte, the flags `f s`, and nothing else changed. -/
def PutsFlags (i : Instr) (f : State → Flags) : Prop :=
  ∀ s : State, ∃ t, exec i s = .next t ∧ t.flags = f s ∧ t.pc = s.pc + 1#8 ∧
    SameRegs s t ∧ t.acc = s.acc ∧ t.ct = s.ct ∧ SameMem s t

/-- Every register, flag, PC and CT is 0. -/
def CpuZero (t : State) : Prop :=
  (∀ k, t.reg k = 0#8) ∧ t.acc = 0#8 ∧ t.pc = 0#8 ∧ t.ct = 0#8 ∧ t.flags = ⟨false, false, false, false⟩

/-- The data partition is 0 and the program partition is as before. -/
def DataZeroProgramKept (s t : State) : Prop :=
  (∀ a : Byte, 0x80#8 ≤ a → t.readByte a = 0#8) ∧ (∀ a : Byte, a < 0x80#8 → t.readByte a = s.readByte a)

/-- The opcode bits the source does not name, by family (30_encoding.md R76). -/
def ignoredBits (op : Byte) : Byte :=
  let f := op.extractLsb' 4 4
  if f = 0x2#4 ∨ f = 0xD#4 ∨ f = 0xE#4 then 0b00001100#8
  else if f = 0x3#4 ∨ f = 0x6#4 ∨ f = 0xC#4 then 0b00001110#8
  else if f = 0x4#4 then 0b00001000#8
  else if f = 0x7#4 ∨ f = 0x9#4 ∨ f = 0xA#4 ∨ f = 0xB#4 ∨ f = 0xF#4 then 0b00001111#8
  else if f = 0x8#4 ∧ op.extractLsb' 2 2 = 2#2 then 0b00000011#8
  else 0#8

/-- The opcode bytes that begin a two-byte instruction, by number (30_encoding.md R75). -/
abbrev BeginsTwoBytes (op : Byte) : Prop :=
  (op.toNat / 16 = 1 ∧ op.toNat % 4 < 2) ∨ op.toNat / 16 = 2 ∨ op.toNat / 16 = 3 ∨ op.toNat / 16 = 5 ∨
    (op.toNat / 16 = 12 ∧ op.toNat % 2 = 1)

/-- Opcode bytes of instructions that may set PC themselves: jumps, CALL and RESET. -/
abbrev SetsPc (op : Byte) : Prop :=
  op.toNat / 16 = 5 ∨ (op.toNat / 16 = 12 ∧ op.toNat % 2 = 1) ∨ op.toNat / 16 = 15

/-- The decision of a family 0x5 byte, `(F XNOR W) XOR D` (42_control.md R140; the spec's decision D3, assumption 11). -/
abbrev JumpTakenBy (op : Byte) (f : Flags) : Bool :=
  let flag := match op.toNat % 4 with
    | 0 => f.cf
    | 1 => f.sf
    | 2 => f.zf
    | _ => f.pf
  (flag == op.getLsbD 2) != op.getLsbD 3

/-- Opcode bytes whose step sets PC when the flags are `f`: a jump that is taken, CALL and RESET. -/
abbrev SetsPcUnder (f : Flags) (op : Byte) : Prop :=
  (op.toNat / 16 = 5 ∧ JumpTakenBy op f = true) ∨ (op.toNat / 16 = 12 ∧ op.toNat % 2 = 1) ∨ op.toNat / 16 = 15

end Sys2Proof.Statements

open Sys2Proof.Statements

/-! ## Encoding -/

/-- R84, R82 (the spec's own notation, D19): what an assembler emits decodes to the instruction it was made from, with
every operand at every value, whatever bytes follow. -/
def Obligations.DecodeEncodeRoundTrip : Prop :=
  ∀ (i : Instr) (rest : List Byte), decode (encode i ++ rest) = .instr i rest

/-- R77: every opcode byte is an instruction; no step is refused; no opcode byte traps (a fault comes of a store's
operand byte only); an empty cell executes as MOV r0,r0, which changes nothing but PC. -/
def Obligations.EveryOpcodeByteIsAnInstruction : Prop :=
  (∀ (op b : Byte) (rest : List Byte), ∃ i rest', decode (op :: b :: rest) = .instr i rest') ∧
  (∀ (s : State) (r : Refusal), step s ≠ .refused r) ∧
  (∀ (s : State) (f : Fault), step s = .fault f →
    ∃ (a : Byte) (r : Reg) (rest : List Byte), decode s.fetchBytes = .instr (.movMR a r) rest ∧ a < 0x80#8) ∧
  OneByte 0x00#8 (.movRR .r0 .r0) ∧
  (∀ s : State, s.readByte s.pc = 0x00#8 → ∃ t, step s = .next t ∧ t.pc = s.pc + 1#8 ∧ OnlyPc s t)

/-- Words written out from 30_encoding.md R72 (each also a vector of 95_test_vectors.md), one or more per family. -/
def Obligations.WrittenOutWordsDecode : Prop :=
  decode [0x06#8] = .instr (.movRR .r1 .r2) [] ∧
  decode [0x1C#8, 0x05#8] = .instr (.movRI .r3 0x05#8) [] ∧
  decode [0x15#8, 0x10#8] = .instr (.movRM .r1 0x10#8) [] ∧
  decode [0x1A#8] = .instr (.movRAcc .r2) [] ∧
  decode [0x1F#8] = .instr (.movRPc .r3) [] ∧
  decode [0x2E#8, 0xFF#8] = .instr (.movMR 0xFF#8 .r2) [] ∧
  decode [0x3F#8, 0x10#8] = .instr (.movAccM 0x10#8) [] ∧
  decode [0x4B#8] = .instr (.incR .r3) [] ∧
  decode [0x5C#8, 0x0B#8] = .instr (.jncD 0x0B#8) [] ∧
  decode [0x61#8] = .instr .incAcc [] ∧
  decode [0x7F#8] = .instr .clrAcc [] ∧
  decode [0x8D#8] = .instr (.xorAcc .r1) [] ∧
  decode [0x9F#8] = .instr .nop9 [] ∧
  decode [0xA5#8] = .instr .nopA [] ∧
  decode [0xBF#8] = .instr .nopB [] ∧
  decode [0xCE#8] = .instr .ret [] ∧
  decode [0xCF#8, 0x90#8] = .instr (.call 0x90#8) [] ∧
  decode [0xDF#8] = .instr (.xchg .r3) [] ∧
  decode [0xEF#8] = .instr .stz [] ∧
  decode [0xF0#8] = .instr .reset []

/-- 30_encoding.md section 3 (R76, the spec's decision D7, assumption 8): an opcode byte decodes exactly as the byte with
the bits the source does not name cleared. -/
def Obligations.IgnoredBitsDoNotMatter : Prop :=
  ∀ (op b : Byte) (rest : List Byte), decode (op :: b :: rest) = decode ((op &&& ~~~ ignoredBits op) :: b :: rest)

/-- 30_encoding.md R75 (decisions D2, D6; assumptions 5, 14): the opcode byte alone decides the length, and exactly 64 of
the 256 begin a two-byte instruction. -/
def Obligations.OpcodeByteDecidesLength : Prop :=
  (∀ (op b : Byte) (rest : List Byte), BeginsTwoBytes op →
    ∃ i, decode (op :: b :: rest) = .instr i rest ∧ i.length = 2) ∧
  (∀ (op b : Byte) (rest : List Byte), ¬ BeginsTwoBytes op →
    ∃ i, decode (op :: b :: rest) = .instr i (b :: rest) ∧ i.length = 1) ∧
  ((List.range 256).filter (fun n => decide (BeginsTwoBytes (BitVec.ofNat 8 n)))).length = 64

/-- 30_encoding.md R79 (decision D8, assumption 25): every byte of family 0x2 is the store, so no encoding is
`ACC <- x[s]`; CLR ACC followed by OR ACC,Rs has that effect. -/
def Obligations.StoreFamilyHasNoAccDestination : Prop :=
  (∀ (u : BitVec 2) (r : Reg), TwoByte (0x2#4 ++ u ++ r.bits) (fun a => .movMR a r)) ∧
  (∀ (r : Reg) (s : State), ∃ t u, exec .clrAcc s = .next t ∧ exec (.orAcc r) t = .next u ∧
    u.acc = s.reg r ∧ u.pc = s.pc + 2#8 ∧ OnlyAccAndPc s u)

/-! ## The step -/

/-- 30_encoding.md R80, R73; 20_memory.md R51 (D15): when the two bytes at PC and PC + 1 (modulo 256, any partition)
decode to an instruction, the step is that instruction run on this state; nothing is added around it. R73 fetches the
second byte of a two-byte instruction only: that the model looks at both bytes, of a one-byte instruction too, is its own
DESIGN CHOICE (assumption 15). Fetch from any partition is D15 (assumption 23). -/
def Obligations.StepRunsDecodedInstruction : Prop :=
  (∀ s : State, s.fetchBytes = [s.readByte s.pc, s.readByte (s.pc + 1#8)]) ∧
  (∀ (s : State) (i : Instr) (rest : List Byte), decode s.fetchBytes = .instr i rest → step s = exec i s)

/-- 95_test_vectors.md S2, 30_encoding.md R75 (D2, D3, D6; assumptions 5, 11, 14): after a step that does not jump, call or
reset (a step that faults gives no next state) PC is past the instruction's bytes; a jump that is not taken is among them,
its target byte consumed. -/
def Obligations.StepAdvancesPastItsBytes : Prop :=
  ∀ s t : State, step s = .next t → ¬ SetsPcUnder s.flags (s.readByte s.pc) →
    (BeginsTwoBytes (s.readByte s.pc) → t.pc = s.pc + 2#8) ∧
    (¬ BeginsTwoBytes (s.readByte s.pc) → t.pc = s.pc + 1#8)

/-- 10_state.md R24 (derived by the spec; with D15 and D6, assumptions 23 and 14), 95_test_vectors.md S3: at address 255 a
one-byte instruction leaves PC = 0, and a two-byte one takes its operand from address 0 and leaves PC = 1, when neither
is a jump, CALL or RESET. R24 says the operand's place of a two-byte instruction only: that the two bytes looked at are
M[255] and M[0] for a one-byte instruction too is the model's DESIGN CHOICE (assumption 15). -/
def Obligations.PcWrapsAtTopOfMemory : Prop :=
  ∀ s : State, s.pc = 0xFF#8 →
    s.fetchBytes = [s.readByte 0xFF#8, s.readByte 0x00#8] ∧
    (∀ t, step s = .next t → ¬ SetsPc (s.readByte 0xFF#8) → ¬ BeginsTwoBytes (s.readByte 0xFF#8) → t.pc = 0x00#8) ∧
    (∀ t, step s = .next t → ¬ SetsPc (s.readByte 0xFF#8) → BeginsTwoBytes (s.readByte 0xFF#8) → t.pc = 0x01#8)

/-! ## Data movement -/

/-- R100 `MOV Rd,Rs`, whole: bytes `0000 dd ss`, one byte long, the source register kept (d = s changes only PC), no flag
written, never a fault. -/
def Obligations.MovRegRegCopies : Prop :=
  (∀ d r : Reg, OneByte (0x0#4 ++ d.bits ++ r.bits) (.movRR d r)) ∧
  (∀ d r : Reg, PutsInReg 1#8 d (.movRR d r) (fun s => s.reg r))

/-- R101 `MOV Rd,#imm`, whole: bytes `0001 dd 00` and the immediate, stored unchanged. -/
def Obligations.MovRegImmLoads : Prop :=
  (∀ d : Reg, TwoByte (0x1#4 ++ d.bits ++ 0b00#2) (.movRI d)) ∧
  (∀ (d : Reg) (imm : Byte), PutsInReg 2#8 d (.movRI d imm) (fun _ => imm))

/-- R102 `MOV Rd,[a]`, whole: bytes `0001 dd 01` and the data address; bit 7 of the address does not matter, the program
partition is never read, no fault. -/
def Obligations.MovRegMemLoads : Prop :=
  (∀ d : Reg, TwoByte (0x1#4 ++ d.bits ++ 0b01#2) (.movRM d)) ∧
  (∀ (d : Reg) (a : Byte), PutsInReg 2#8 d (.movRM d a) (fun s => s.readByte (0x80#8 ||| (a &&& 0x7F#8))))

/-- R103 `MOV Rd,ACC`, whole: bytes `0001 dd 10`. -/
def Obligations.MovRegAccCopies : Prop :=
  (∀ d : Reg, OneByte (0x1#4 ++ d.bits ++ 0b10#2) (.movRAcc d)) ∧
  (∀ d : Reg, PutsInReg 1#8 d (.movRAcc d) (fun s => s.acc))

/-- `MOV Rd,PC` (40_data_movement.md family 0x1, the spec's decision D10, assumption 12): the value written is the address
of the next instruction, `A + 1`, not `A`. -/
def Obligations.MovRegPcGetsNextAddress : Prop :=
  (∀ d : Reg, OneByte (0x1#4 ++ d.bits ++ 0b11#2) (.movRPc d)) ∧
  (∀ d : Reg, PutsInReg 1#8 d (.movRPc d) (fun s => s.pc + 1#8))

/-- `MOV [a],Rs` with `a` in the data partition (family 0x2; decisions D1, D8, assumptions 4, 25): the cell at the raw
address gets the register's byte, every other cell, register and flag is as before, PC is past two bytes. -/
def Obligations.StoreWritesDataPartition : Prop :=
  ∀ (a : Byte) (r : Reg) (s : State), 0x80#8 ≤ a → ∃ t, exec (.movMR a r) s = .next t ∧
    t.readByte a = s.reg r ∧ SameMemBut a s t ∧ t.pc = s.pc + 2#8 ∧
    SameRegs s t ∧ t.acc = s.acc ∧ t.ct = s.ct ∧ t.flags = s.flags

/-- `MOV [a],Rs` with `a` below 0x80 (60_exceptions.md section 1; decision D1, assumption 4) ends with the fault
ProtectedRegion(a), and the boundary is 0x7F / 0x80. -/
def Obligations.StoreBelowDataPartitionFaults : Prop :=
  ∀ (a : Byte) (r : Reg) (s : State),
    (a < 0x80#8 → exec (.movMR a r) s = .fault (.protectedRegion a)) ∧
    (0x80#8 ≤ a → ∀ f, exec (.movMR a r) s ≠ .fault f)

/-- R106 `MOV ACC,#imm`, whole: bytes `0011 --- 0` and the immediate; "`op[3:1]` ignored" is the rule's own text (D7 stands
behind it, assumption 8). -/
def Obligations.MovAccImmLoads : Prop :=
  (∀ u : BitVec 3, TwoByte (0x3#4 ++ u ++ 0b0#1) .movAccI) ∧
  (∀ imm : Byte, PutsInAcc 2#8 (.movAccI imm) (fun _ => imm))

/-- R107 `MOV ACC,[a]`, whole: bytes `0011 --- 1` and the data address ("`op[3:1]` ignored": D7 stands behind it,
assumption 8). -/
def Obligations.MovAccMemLoads : Prop :=
  (∀ u : BitVec 3, TwoByte (0x3#4 ++ u ++ 0b1#1) .movAccM) ∧
  (∀ a : Byte, PutsInAcc 2#8 (.movAccM a) (fun s => s.readByte (0x80#8 ||| (a &&& 0x7F#8))))

/-- R108 `XCHG ACC,Rn`, whole: bytes `1101 -- rr`; the two values change places, memory and flags are untouched, and twice
in a row restores both, for all initial pairs. -/
def Obligations.XchgSwapsAndIsAnInvolution : Prop :=
  (∀ (u : BitVec 2) (r : Reg), OneByte (0xD#4 ++ u ++ r.bits) (.xchg r)) ∧
  (∀ (r : Reg) (s : State), ∃ t, exec (.xchg r) s = .next t ∧ t.acc = s.reg r ∧ t.reg r = s.acc ∧
    SameRegsBut r s t ∧ t.pc = s.pc + 1#8 ∧ t.ct = s.ct ∧ t.flags = s.flags ∧ SameMem s t) ∧
  (∀ (r : Reg) (s : State), ∃ t u, exec (.xchg r) s = .next t ∧ exec (.xchg r) t = .next u ∧
    u.acc = s.acc ∧ SameRegs s u)

/-! ## Increment, decrement, clear, logic, stubs -/

/-- R120 `INC Rn` and R121 `DEC Rn`, whole: bytes `0100 - 0 rr` and `0100 - 1 rr`, plus and minus one modulo 256, no flag
("`op[3]` ignored": D7 stands behind it, assumption 8). -/
def Obligations.IncDecRegisterWraps : Prop :=
  (∀ (u : BitVec 1) (r : Reg), OneByte (0x4#4 ++ u ++ 0b0#1 ++ r.bits) (.incR r)) ∧
  (∀ (u : BitVec 1) (r : Reg), OneByte (0x4#4 ++ u ++ 0b1#1 ++ r.bits) (.decR r)) ∧
  (∀ r : Reg, PutsInReg 1#8 r (.incR r) (fun s => BitVec.ofNat 8 (((s.reg r).toNat + 1) % 256))) ∧
  (∀ r : Reg, PutsInReg 1#8 r (.decR r) (fun s => BitVec.ofNat 8 (((s.reg r).toNat + 255) % 256)))

/-- R122 `INC ACC` and R123 `DEC ACC`, whole: bytes `0110 --- 1` and `0110 --- 0` ("`op[3:1]` ignored": D7 stands behind it,
assumption 8). -/
def Obligations.IncDecAccWraps : Prop :=
  (∀ u : BitVec 3, OneByte (0x6#4 ++ u ++ 0b1#1) .incAcc) ∧
  (∀ u : BitVec 3, OneByte (0x6#4 ++ u ++ 0b0#1) .decAcc) ∧
  PutsInAcc 1#8 .incAcc (fun s => BitVec.ofNat 8 ((s.acc.toNat + 1) % 256)) ∧
  PutsInAcc 1#8 .decAcc (fun s => BitVec.ofNat 8 ((s.acc.toNat + 255) % 256))

/-- R124 `CLR ACC`, whole: bytes `0111 ----`, ACC is 0 and ZF is not set; idempotent. -/
def Obligations.ClrAccZeroes : Prop :=
  (∀ u : BitVec 4, OneByte (0x7#4 ++ u) .clrAcc) ∧ PutsInAcc 1#8 .clrAcc (fun _ => 0#8)

/-- Family 0x8 (41_alu.md; decisions D25 and D4, assumptions 17 and 6): AND, OR, NOT, XOR bit by bit on ACC, the general
register unchanged, NOT ignoring its source field. -/
def Obligations.LogicOpsOnAcc : Prop :=
  (∀ r : Reg, OneByte (0x8#4 ++ 0b00#2 ++ r.bits) (.andAcc r)) ∧
  (∀ r : Reg, OneByte (0x8#4 ++ 0b01#2 ++ r.bits) (.orAcc r)) ∧
  (∀ u : BitVec 2, OneByte (0x8#4 ++ 0b10#2 ++ u) .notAcc) ∧
  (∀ r : Reg, OneByte (0x8#4 ++ 0b11#2 ++ r.bits) (.xorAcc r)) ∧
  (∀ r : Reg, PutsInAcc 1#8 (.andAcc r) (fun s => s.acc &&& s.reg r)) ∧
  (∀ r : Reg, PutsInAcc 1#8 (.orAcc r) (fun s => s.acc ||| s.reg r)) ∧
  PutsInAcc 1#8 .notAcc (fun s => 255#8 - s.acc) ∧
  (∀ r : Reg, PutsInAcc 1#8 (.xorAcc r) (fun s => s.acc ^^^ s.reg r))

/-- R129 `NOP9`, whole: bytes `1001 ----`, nothing but PC. -/
def Obligations.StubNop9DoesNothing : Prop :=
  (∀ u : BitVec 4, OneByte (0x9#4 ++ u) .nop9) ∧ DoesNothing .nop9

/-- `NOPA` and `NOPB` (41_alu.md; decision D6, assumption 14): one byte long, nothing but PC, so the byte after is the next
instruction. -/
def Obligations.StubNopAAndNopBDoNothing : Prop :=
  (∀ u : BitVec 4, OneByte (0xA#4 ++ u) .nopA) ∧ DoesNothing .nopA ∧
  (∀ u : BitVec 4, OneByte (0xB#4 ++ u) .nopB) ∧ DoesNothing .nopB

/-! ## Control transfer -/

/-- 42_control.md R140, R141, R142 (decisions D3, D2 and D15, assumptions 11, 5 and 23): the sixteen jumps, each byte and
the flag value on which it is taken; taken, PC is the target, else PC is past both bytes; nothing else changes. -/
def Obligations.JumpsAreTakenByTheirFlag : Prop :=
  (JumpByte 0x50#8 .jnc ∧ JumpByte 0x51#8 .jns ∧ JumpByte 0x52#8 .jnz ∧ JumpByte 0x53#8 .jnp) ∧
  (JumpByte 0x54#8 .jc ∧ JumpByte 0x55#8 .js ∧ JumpByte 0x56#8 .jz ∧ JumpByte 0x57#8 .jp) ∧
  (JumpByte 0x58#8 .jcD ∧ JumpByte 0x59#8 .jsD ∧ JumpByte 0x5A#8 .jzD ∧ JumpByte 0x5B#8 .jpD) ∧
  (JumpByte 0x5C#8 .jncD ∧ JumpByte 0x5D#8 .jnsD ∧ JumpByte 0x5E#8 .jnzD ∧ JumpByte 0x5F#8 .jnpD) ∧
  (JumpsWhen .jnc (fun s => !s.flags.cf) ∧ JumpsWhen .jns (fun s => !s.flags.sf) ∧
    JumpsWhen .jnz (fun s => !s.flags.zf) ∧ JumpsWhen .jnp (fun s => !s.flags.pf)) ∧
  (JumpsWhen .jc (fun s => s.flags.cf) ∧ JumpsWhen .js (fun s => s.flags.sf) ∧
    JumpsWhen .jz (fun s => s.flags.zf) ∧ JumpsWhen .jp (fun s => s.flags.pf)) ∧
  (JumpsWhen .jcD (fun s => s.flags.cf) ∧ JumpsWhen .jsD (fun s => s.flags.sf) ∧
    JumpsWhen .jzD (fun s => s.flags.zf) ∧ JumpsWhen .jpD (fun s => s.flags.pf)) ∧
  (JumpsWhen .jncD (fun s => !s.flags.cf) ∧ JumpsWhen .jnsD (fun s => !s.flags.sf) ∧
    JumpsWhen .jnzD (fun s => !s.flags.zf) ∧ JumpsWhen .jnpD (fun s => !s.flags.pf))

/-- R143 `CALL t`, whole: bytes `1100 --- 1` and the target; CT gets the address after the operand byte, whatever it held
(a nested CALL loses it), PC the target; nothing is written to memory and no flag changes ("`op[3:1]` ignored": D7 stands
behind it, assumption 8). -/
def Obligations.CallSavesReturnAddress : Prop :=
  (∀ u : BitVec 3, TwoByte (0xC#4 ++ u ++ 0b1#1) .call) ∧
  (∀ (target : Byte) (s : State), ∃ t, exec (.call target) s = .next t ∧ t.ct = s.pc + 2#8 ∧ t.pc = target ∧
    SameRegs s t ∧ t.acc = s.acc ∧ t.flags = s.flags ∧ SameMem s t)

/-- `RET` (42_control.md family 0xC; the spec's decision D5, assumption 7): a one-byte stub, CT neither read nor changed. -/
def Obligations.RetIsAStub : Prop :=
  (∀ u : BitVec 3, OneByte (0xC#4 ++ u ++ 0b0#1) .ret) ∧ DoesNothing .ret

/-- 42_control.md R147 (derived by the spec from R140 and R28; D3, D2, assumptions 11, 5): while SF and PF are 0, the jumps
taken on 0 always jump and those taken on 1 never do. -/
def Obligations.SignParityJumpsAreFixed : Prop :=
  ∀ (s : State) (t : Byte), s.SignParityClear →
    (∀ i ∈ [Instr.jns t, .jnp t, .jnsD t, .jnpD t], ∃ u, exec i s = .next u ∧ u.pc = t ∧ OnlyPc s u) ∧
    (∀ i ∈ [Instr.js t, .jp t, .jsD t, .jpD t], ∃ u, exec i s = .next u ∧ u.pc = s.pc + 2#8 ∧ OnlyPc s u)

/-! ## Flags and reset -/

/-- R160 to R163, whole: CLC, STC, CLZ, STZ, bytes `1110 -- f v`; each writes one flag and leaves the other three
("`op[3:2]` ignored": D7 stands behind it, assumption 8). -/
def Obligations.FlagInstructionsWriteOneFlag : Prop :=
  (∀ u : BitVec 2, OneByte (0xE#4 ++ u ++ 0b00#2) .clc) ∧ PutsFlags .clc (fun s => { s.flags with cf := false }) ∧
  (∀ u : BitVec 2, OneByte (0xE#4 ++ u ++ 0b01#2) .stc) ∧ PutsFlags .stc (fun s => { s.flags with cf := true }) ∧
  (∀ u : BitVec 2, OneByte (0xE#4 ++ u ++ 0b10#2) .clz) ∧ PutsFlags .clz (fun s => { s.flags with zf := false }) ∧
  (∀ u : BitVec 2, OneByte (0xE#4 ++ u ++ 0b11#2) .stz) ∧ PutsFlags .stz (fun s => { s.flags with zf := true })

/-- `RESET` (43_flags_system.md family 0xF; decision D11, assumption 9): from any state, all of the CPU is 0, PC too, the
data partition is 0 and the program partition is kept. -/
def Obligations.ResetInstructionClears : Prop :=
  (∀ u : BitVec 4, OneByte (0xF#4 ++ u) .reset) ∧
  (∀ s : State, ∃ t, exec .reset s = .next t ∧ CpuZero t ∧ DataZeroProgramKept s t)

/-- 70_reset_and_hazards.md R200, R201 (decision D11, assumption 9): RESET is exactly the host's `reset()`, and reset is
idempotent. -/
def Obligations.ResetIsHostResetAndIdempotent : Prop :=
  (∀ s : State, exec .reset s = .next (hostOnReady params .reset s).1) ∧
  (∀ s : State, (hostOnReady params .reset (hostOnReady params .reset s).1).1 = (hostOnReady params .reset s).1)

/-! ## Frames: the spec's lists of writers -/

/-- 10_state.md section 1, "Instructions that write one": a general register changes only if it is the destination of one
of those instructions. -/
def Obligations.GeneralRegisterWriters : Prop :=
  ∀ (i : Instr) (s t : State) (k : Reg), exec i s = .next t → t.reg k ≠ s.reg k →
    (∃ r, i = .movRR k r) ∨ (∃ imm, i = .movRI k imm) ∨ (∃ a, i = .movRM k a) ∨ i = .movRAcc k ∨ i = .movRPc k ∨
    i = .incR k ∨ i = .decR k ∨ i = .xchg k ∨ i = .reset

/-- 10_state.md section 2, ACC "Written by". -/
def Obligations.AccWriters : Prop :=
  ∀ (i : Instr) (s t : State), exec i s = .next t → t.acc ≠ s.acc →
    (∃ imm, i = .movAccI imm) ∨ (∃ a, i = .movAccM a) ∨ i = .incAcc ∨ i = .decAcc ∨ i = .clrAcc ∨
    (∃ r, i = .andAcc r) ∨ (∃ r, i = .orAcc r) ∨ i = .notAcc ∨ (∃ r, i = .xorAcc r) ∨ (∃ r, i = .xchg r) ∨ i = .reset

/-- 10_state.md section 2, CT: "Written by CALL and RESET only." -/
def Obligations.CallTargetWriters : Prop :=
  ∀ (i : Instr) (s t : State), exec i s = .next t → t.ct ≠ s.ct → (∃ v, i = .call v) ∨ i = .reset

/-- 10_state.md section 4 (R27, decision D14, assumption 13; R28, R164): no instruction but family 0xE and RESET writes a
flag; CLC and STC write CF alone, CLZ and STZ write ZF alone; SF and PF change by RESET alone. -/
def Obligations.FlagWriters : Prop :=
  ∀ (i : Instr) (s t : State), exec i s = .next t →
    (t.flags.cf ≠ s.flags.cf → i = .clc ∨ i = .stc ∨ i = .reset) ∧
    (t.flags.zf ≠ s.flags.zf → i = .clz ∨ i = .stz ∨ i = .reset) ∧
    (t.flags.sf ≠ s.flags.sf → i = .reset) ∧ (t.flags.pf ≠ s.flags.pf → i = .reset)

/-- 20_memory.md section 7 (R52, derived by the spec; D1 and D11, assumptions 4 and 9): a cell changes only by a store to
exactly that cell, in the data partition, or by RESET, in the data partition. -/
def Obligations.MemoryWriters : Prop :=
  ∀ (i : Instr) (s t : State) (b : Byte), exec i s = .next t → t.readByte b ≠ s.readByte b →
    0x80#8 ≤ b ∧ ((∃ r, i = .movMR b r ∧ t.readByte b = s.reg r) ∨ (i = .reset ∧ t.readByte b = 0#8))

/-- 10_state.md section 3 (R24, derived by the spec; D2, D5, assumptions 5, 7): PC is set otherwise than by the fetch only
by a jump or CALL, to its target, or by RESET, to 0. -/
def Obligations.ProgramCounterWriters : Prop :=
  ∀ (i : Instr) (s t : State), exec i s = .next t → t.pc ≠ s.pc + BitVec.ofNat 8 i.length →
    (∃ v, i ∈ [Instr.jnc v, .jns v, .jnz v, .jnp v, .jc v, .js v, .jz v, .jp v,
      .jcD v, .jsD v, .jzD v, .jpD v, .jncD v, .jnsD v, .jnzD v, .jnpD v, .call v] ∧ t.pc = v) ∨
    (i = .reset ∧ t.pc = 0#8)

/-! ## Whole-machine rules -/

/-- The memory keeps its canonical form (assumption 3), from every state that has it. -/
def Obligations.StepKeepsMemoryCanonical : Prop :=
  ∀ s t : State, s.MemCanonical → step s = .next t → t.MemCanonical

/-- The reset state meets both invariants. That SF and PF are 0 is 10_state.md R35; that the memory is canonical is about
the model's own form of memory (DESIGN CHOICE, assumption 3), and that State.reset is the construction from the empty image
is DEDUCED (assumption 2). -/
def Obligations.ResetStateMeetsInvariants : Prop := State.reset.MemCanonical ∧ State.reset.SignParityClear

/-- 10_state.md R28 (derived by the spec from R27, decision D14, assumption 13): SF and PF stay 0. -/
def Obligations.StepKeepsSignParityClear : Prop :=
  ∀ s t : State, s.SignParityClear → step s = .next t → t.SignParityClear

/-- 60_exceptions.md section 4 (R184; D1 and D11, assumptions 4 and 9): no step changes a cell of the program partition,
and under no value of the parameters does one, unless RESET is made to clear it. -/
def Obligations.StepPreservesProgramPartition : Prop :=
  (∀ (s t : State) (a : Byte), step s = .next t → a < 0x80#8 → t.readByte a = s.readByte a) ∧
  (∀ (p : Params) (s t : State) (a : Byte), p.resetClearsProgram = false → stepWith p s = .next t → a < 0x80#8 →
    t.readByte a = s.readByte a)

/-- 60_exceptions.md sections 1 and 2 (R171, R178; decision D1, assumption 4): a step ends with a fault exactly when the
byte at PC is of family 0x2 and its operand byte is below 0x80, and the fault is ProtectedRegion of that byte. -/
def Obligations.FaultIsExactlyALowStore : Prop :=
  ∀ (s : State) (f : Fault), step s = .fault f ↔
    ((s.readByte s.pc).extractLsb' 4 4 = 0x2#4 ∧ s.readByte (s.pc + 1#8) < 0x80#8 ∧
      f = .protectedRegion (s.readByte (s.pc + 1#8)))

/-- 60_exceptions.md R176 (decision D13, assumption 10): after a faulted step the host finds the state as it was, and the
next step faults again in the same way, for ever. -/
def Obligations.FaultedStepRepeatsForever : Prop :=
  ∀ (s t : State) (f : Fault), hostStep params s = (t, .fault f) →
    t = s ∧ ∀ n : Nat, hostStep params ((fun u => (hostStep params u).1)^[n] s) = (s, .fault f)

/-- 42_control.md R147 (derived by the spec; D14, assumption 13): where a step goes, and the flags, CT and fault it ends
with, depend on PC, CT, the flags and memory, never on a general register or ACC. -/
def Obligations.ControlFlowIgnoresData : Prop :=
  ∀ s t : State, s.pc = t.pc → s.ct = t.ct → s.flags = t.flags → s.mem = t.mem →
    (∀ s', step s = .next s' → ∃ t', step t = .next t' ∧ t'.pc = s'.pc ∧ t'.ct = s'.ct ∧ t'.flags = s'.flags) ∧
    (∀ f, step s = .fault f → step t = .fault f)

/-- 70_reset_and_hazards.md R207, 30_encoding.md R83 (derived by the spec; D21, D3): `JNS A` at address `A` with SF = 0
reproduces the state for ever. -/
def Obligations.JumpToItselfIsAFixedPoint : Prop :=
  ∀ s : State, s.readByte s.pc = 0x51#8 → s.readByte (s.pc + 1#8) = s.pc → s.flags.sf = false → step s = .next s

/-- 20_memory.md section 10 (R61; D1, D15, assumptions 4 and 23): the byte a store puts in a cell is the opcode byte the
next fetch at that address finds, whatever else the state holds; so is the byte a host's force-write puts there. -/
def Obligations.StoredByteIsFetched : Prop :=
  (∀ (a : Byte) (r : Reg) (s t u : State), exec (.movMR a r) s = .next t → u.mem = t.mem → u.pc = a →
    u.fetchBytes.head? = some (s.reg r)) ∧
  (∀ (a v : Byte) (s u : State), u.mem = (s.forceWrite a v).mem → u.pc = a → u.fetchBytes.head? = some v)

/-- 30_encoding.md R78, R85 (D5, D6, D22, assumptions 7, 14, 20): an encoding the trace reports as ignored changes nothing
but PC, which moves past the opcode byte; the event names that byte and its address. -/
def Obligations.IgnoredEncodingsOnlyAdvancePc : Prop :=
  ∀ (s : State) (op at_ : Byte), ignoredEvent s = some (op, at_) →
    op = s.readByte s.pc ∧ at_ = s.pc ∧ ∃ t, step s = .next t ∧ t.pc = s.pc + 1#8 ∧ OnlyPc s t

/-! ## The memory block and the host -/

/-- R43, R44: the restricted write port refuses exactly the program partition, on the address alone, and otherwise writes
one cell; the force-write port writes any one cell and nothing else. The last three clauses say the same of the host's
operations on an engine, with what it is answered (memory.write as a host operation: assumption 27). -/
def Obligations.WritePortsEnforceThePartition : Prop :=
  (∀ (s : State) (a v : Byte), a < 0x80#8 → s.restrictedWrite a v = .error (.protectedRegion a)) ∧
  (∀ (s : State) (a v : Byte), 0x80#8 ≤ a → ∃ t, s.restrictedWrite a v = .ok t ∧ t.readByte a = v ∧ SameMemBut a s t ∧
    t.x = s.x ∧ t.acc = s.acc ∧ t.pc = s.pc ∧ t.ct = s.ct ∧ t.flags = s.flags) ∧
  (∀ (s : State) (a v : Byte), (s.forceWrite a v).readByte a = v ∧ SameMemBut a s (s.forceWrite a v) ∧
    (s.forceWrite a v).x = s.x ∧ (s.forceWrite a v).acc = s.acc ∧ (s.forceWrite a v).pc = s.pc ∧
    (s.forceWrite a v).ct = s.ct ∧ (s.forceWrite a v).flags = s.flags) ∧
  (∀ (p : Params) (s : State) (a v : Byte), a < 0x80#8 →
    hostOnReady p (.memWrite a v) s = (s, .ended (.fault (.protectedRegion a)))) ∧
  (∀ (p : Params) (s : State) (a v : Byte), 0x80#8 ≤ a → ∃ t, hostOnReady p (.memWrite a v) s = (t, .done) ∧
    t.readByte a = v ∧ SameMemBut a s t ∧ t.x = s.x ∧ t.acc = s.acc ∧ t.pc = s.pc ∧ t.ct = s.ct ∧ t.flags = s.flags) ∧
  (∀ (p : Params) (s : State) (a v : Byte), hostOnReady p (.forceWrite a v) s = (s.forceWrite a v, .done))

/-- 20_memory.md R45 (with D24, D11, assumptions 26 and 9): the memory reset port zeroes the data partition, or all of
memory, touches no register, flag or PC, and is what an engine reset calls with `false`. The host's memory.reset is this
port, and both resets are answered `done`. -/
def Obligations.MemoryResetPort : Prop :=
  (∀ s : State, DataZeroProgramKept s (s.memReset false)) ∧
  (∀ (s : State) (a : Byte), (s.memReset true).readByte a = 0#8) ∧
  (∀ (s : State) (c : Bool), (s.memReset c).x = s.x ∧ (s.memReset c).acc = s.acc ∧ (s.memReset c).pc = s.pc ∧
    (s.memReset c).ct = s.ct ∧ (s.memReset c).flags = s.flags) ∧
  (∀ s : State, (hostOnReady params .reset s).1.mem = (s.memReset false).mem) ∧
  (∀ (p : Params) (c : Bool) (s : State), hostOnReady p (.memReset c) s = (s.memReset c, .done)) ∧
  (∀ (p : Params) (s : State), (hostOnReady p .reset s).1.mem = (s.memReset p.resetClearsProgram).mem ∧
    (hostOnReady p .reset s).2 = .done)

/-- R48: a load's operand byte is decoded by replacing bit 7 with 1; the two loads read that cell, never the program
partition, and never fault. -/
def Obligations.LoadsReadOnlyTheDataPartition : Prop :=
  (∀ a : Byte, (dataAddr a).toNat = 128 + a.toNat % 128 ∧ dataAddr a = 0x80#8 ||| (a &&& 0x7F#8)) ∧
  (∀ (d : Reg) (a : Byte) (s : State), ∃ t, exec (.movRM d a) s = .next t ∧ t.reg d = s.readByte (dataAddr a)) ∧
  (∀ (a : Byte) (s : State), ∃ t, exec (.movAccM a) s = .next t ∧ t.acc = s.readByte (dataAddr a))

/-- 20_memory.md R49 (derived by the spec from R48): operand bytes that differ in bit 7 alone load the same cell, in every
state; from 0x80 up the decoder changes nothing. -/
def Obligations.LoadAddressesAlias : Prop :=
  (∀ (a : Byte) (d : Reg) (s : State), exec (.movRM d a) s = exec (.movRM d (a ^^^ 0x80#8)) s) ∧
  (∀ (a : Byte) (s : State), exec (.movAccM a) s = exec (.movAccM (a ^^^ 0x80#8)) s) ∧
  (∀ a : Byte, 0x80#8 ≤ a → dataAddr a = a)

/-- 20_memory.md R46, 70_reset_and_hazards.md R204, R205 (decisions D20 and D12, assumption 2): an accepted image is in
cells 0 upward, every other cell is 0, the CPU is 0, from any engine or none. That the memory is canonical is about the
model's own form of memory (DESIGN CHOICE, assumption 3), and that a load on a Ready engine replaces that engine is the
model's DESIGN CHOICE (assumption 27). -/
def Obligations.LoadBuildsTheMachine : Prop :=
  ∀ (p : Params) (e : Engine) (image : List Byte), image.length ≤ 128 →
    ∃ t, hostApply p (.load image) e = (some t, .done) ∧ CpuZero t ∧ t.MemCanonical ∧
      ∀ a : Byte, t.readByte a = image.getD a.toNat 0#8

/-- 60_exceptions.md R173: an image longer than 128 bytes is refused with ProgramTooLarge and has no effect on any state;
one of exactly 128 bytes is accepted. R173 speaks of a construction, where no engine exists: that a refused load leaves a
Ready engine as it was is the model's DESIGN CHOICE (assumption 27). -/
def Obligations.LongImageIsRefused : Prop :=
  (∀ (p : Params) (e : Engine) (image : List Byte), 128 < image.length →
    hostApply p (.load image) e = (e, .programTooLarge)) ∧
  (∀ (p : Params) (e : Engine) (image : List Byte), image.length = 128 →
    (hostApply p (.load image) e).2 = .done)

/-- 10_state.md section 7 (R34; D9, assumption 16): reading a cell and reading the snapshot have no effect; the snapshot's
values are the registers, the byte at PC and the flags; the host's memory writes leave every register and flag alone, and
what they do to the cells, with their replies, is the last three clauses (20_memory.md R43 to R45; D24, assumption 26; memory.write
as a host operation: assumption 27). -/
def Obligations.HostReadsWithoutEffect : Prop :=
  (∀ (p : Params) (s : State) (a : Byte), hostOnReady p (.memRead a) s = (s, .byte (s.readByte a))) ∧
  (∀ (p : Params) (s : State), hostOnReady p .snapshot s = (s, .snap ⟨s.reg .r0, s.reg .r1, s.reg .r2, s.reg .r3,
    s.acc, s.pc, s.ct, s.readByte s.pc, s.flags.cf, s.flags.zf, s.flags.sf, s.flags.pf⟩)) ∧
  (∀ (p : Params) (s : State) (a v : Byte) (c : Bool),
    ∀ op ∈ [HostOp.memReset c, .memWrite a v, .forceWrite a v], ∀ t, (hostOnReady p op s).1 = t →
      t.x = s.x ∧ t.acc = s.acc ∧ t.pc = s.pc ∧ t.ct = s.ct ∧ t.flags = s.flags) ∧
  (∀ (p : Params) (s : State) (c : Bool), ∃ t, hostOnReady p (.memReset c) s = (t, .done) ∧
    ∀ a : Byte, t.readByte a = if c = false ∧ a < 0x80#8 then s.readByte a else 0#8) ∧
  (∀ (p : Params) (s : State) (a v : Byte), ∃ t, hostOnReady p (.forceWrite a v) s = (t, .done) ∧
    t.readByte a = v ∧ SameMemBut a s t) ∧
  (∀ (p : Params) (s : State) (a v : Byte),
    (a < 0x80#8 → hostOnReady p (.memWrite a v) s = (s, .ended (.fault (.protectedRegion a)))) ∧
    (0x80#8 ≤ a → hostOnReady p (.memWrite a v) s = hostOnReady p (.forceWrite a v) s))

/-- 10_state.md R31 (decision D16, assumption 18): with no engine, only `load` does anything. -/
def Obligations.IdleEngineOnlyLoads : Prop :=
  ∀ (p : Params) (op : HostOp), (∀ image, op ≠ .load image) → hostApply p op none = (none, .idle)

/-- 10_state.md R28, 20_memory.md R63 (derived by the spec; D14, assumption 13; the canonical form is the model's own,
assumption 3): under every value of the parameters, every host operation, a step that ends well or badly among them, keeps
both invariants; so does any sequence of them. -/
def Obligations.HostSequencesKeepInvariants : Prop :=
  ∀ (p : Params) (ops : List HostOp) (s : State), s.MemCanonical → s.SignParityClear →
    (ops.foldl (fun u op => (hostOnReady p op u).1) s).MemCanonical ∧
    (ops.foldl (fun u op => (hostOnReady p op u).1) s).SignParityClear

/-- 00_scope.md R6 (assumptions 4 and 6 to 10): what each parameter's other value does. P_STORE_ADDR = masked, P_LOGIC_OP3 =
nop, P_RET = restore, P_NONCANON = nop and refuse, P_RESET_CLEARS_PROGRAM = true, P_FAULT_PC = advanced. Of a byte with an
ignored bit set, P_NONCANON = nop makes a one-byte no-op (R76) and refuse makes a refused step, but that R84 accepts every
byte of family 0x8 where R76 does not: both rules are modelled (DESIGN CHOICE, assumption 29). An accepted byte runs as
the instruction it decodes to by default. -/
def Obligations.ParameterAlternatives : Prop :=
  (∀ (p : Params) (a : Byte) (r : Reg) (s : State), p.storeAddr = .masked →
    ∃ t, execWith p (.movMR a r) s = .next t ∧ t.readByte (dataAddr a) = s.reg r ∧ SameMemBut (dataAddr a) s t ∧
      t.pc = s.pc + 2#8 ∧ SameRegs s t ∧ t.acc = s.acc ∧ t.ct = s.ct ∧ t.flags = s.flags) ∧
  (∀ (p : Params) (r : Reg) (s : State), p.logicOp3 = .nop →
    ∃ t, execWith p (.xorAcc r) s = .next t ∧ t.pc = s.pc + 1#8 ∧ OnlyPc s t) ∧
  (∀ (p : Params) (s : State), p.ret = .restore →
    ∃ t, execWith p .ret s = .next t ∧ t.pc = s.ct ∧ OnlyPc s t) ∧
  (∀ (op : Byte) (rest : List Byte), op &&& ignoredBits op ≠ 0#8 →
    decodeWith .nop (op :: rest) = .noop op rest ∧
    decodeWith (.refuse .r76) (op :: rest) = .refuse (.nonCanonical op) ∧
    decodeWith (.refuse .r84) (op :: rest) =
      if op.toNat / 16 = 8 then decode (op :: rest) else .refuse (.nonCanonical op)) ∧
  (∀ (op : Byte) (rest : List Byte) (nc : NonCanon), op &&& ignoredBits op = 0#8 →
    decodeWith nc (op :: rest) = decode (op :: rest)) ∧
  (∀ (p : Params) (s : State), p.nonCanon = .nop → s.readByte s.pc &&& ignoredBits (s.readByte s.pc) ≠ 0#8 →
    ∃ t, stepWith p s = .next t ∧ t.pc = s.pc + 1#8 ∧ OnlyPc s t) ∧
  (∀ (p : Params) (s : State), p.nonCanon = .refuse .r76 → s.readByte s.pc &&& ignoredBits (s.readByte s.pc) ≠ 0#8 →
    stepWith p s = .refused (.undecodable (.nonCanonical (s.readByte s.pc)))) ∧
  (∀ (p : Params) (s : State), p.nonCanon = .refuse .r84 → s.readByte s.pc &&& ignoredBits (s.readByte s.pc) ≠ 0#8 →
    (s.readByte s.pc).toNat / 16 ≠ 8 → stepWith p s = .refused (.undecodable (.nonCanonical (s.readByte s.pc)))) ∧
  (∀ (p : Params) (s : State) (i : Instr) (rest : List Byte),
    (s.readByte s.pc &&& ignoredBits (s.readByte s.pc) = 0#8 ∨ p.nonCanon = .ignore ∨
      (p.nonCanon = .refuse .r84 ∧ (s.readByte s.pc).toNat / 16 = 8)) →
    decode s.fetchBytes = .instr i rest → stepWith p s = execWith p i s) ∧
  (∀ (p : Params) (s : State), p.resetClearsProgram = true →
    ∃ t, execWith p .reset s = .next t ∧ hostOnReady p .reset s = (t, .done) ∧ CpuZero t ∧ ∀ a : Byte, t.readByte a = 0#8) ∧
  (∀ (p : Params) (s t : State) (f : Fault), p.faultPc = .advanced → hostStep p s = (t, .fault f) →
    t.pc = s.pc + 2#8 ∧ OnlyPc s t)

/-- 42_control.md R141 (a), P_JUMP_CONSUME = taken_only (assumption 5): a jump that is not taken leaves PC at its target
byte, one past the opcode byte; a taken one goes to the target as before; all sixteen. -/
def Obligations.TakenOnlyJumpAlternative : Prop :=
  ∀ (p : Params) (s : State) (t : Byte), p.jumpConsume = .takenOnly →
    (∀ (i : Instr) (taken : Bool), (i, taken) ∈
      [(Instr.jnc t, !s.flags.cf), (.jns t, !s.flags.sf), (.jnz t, !s.flags.zf), (.jnp t, !s.flags.pf),
       (.jc t, s.flags.cf), (.js t, s.flags.sf), (.jz t, s.flags.zf), (.jp t, s.flags.pf),
       (.jcD t, s.flags.cf), (.jsD t, s.flags.sf), (.jzD t, s.flags.zf), (.jpD t, s.flags.pf),
       (.jncD t, !s.flags.cf), (.jnsD t, !s.flags.sf), (.jnzD t, !s.flags.zf), (.jnpD t, !s.flags.pf)] →
      ∃ u, execWith p i s = .next u ∧ OnlyPc s u ∧ u.pc = if taken then t else s.pc + 1#8)

/-- 10_state.md R36, 60_exceptions.md R176, R179 (decision D13, assumption 10): how the host's `step()` ends. A step that
gives a next state leaves the host that state, answered ok; a fault leaves the state before it (with P_FAULT_PC = restored;
ParameterAlternatives says the other value), answered with the fault; a refusal, which is the model's own outcome (assumption
28), leaves the state. Every host operation on a Ready engine leaves it Ready (the holding of one engine is assumption 27). -/
def Obligations.HostStepReportsHowTheStepEnded : Prop :=
  (∀ (p : Params) (s t : State), stepWith p s = .next t → hostStep p s = (t, .ok)) ∧
  (∀ (p : Params) (s : State) (f : Fault), stepWith p s = .fault f → p.faultPc = .restored →
    hostStep p s = (s, .fault f)) ∧
  (∀ (p : Params) (s : State) (r : Refusal), stepWith p s = .refused r → hostStep p s = (s, .refused r)) ∧
  (∀ (p : Params) (s : State), hostOnReady p .step s = ((hostStep p s).1, .ended (hostStep p s).2)) ∧
  (∀ s : State, stepWith params s = step s) ∧
  (∀ (p : Params) (op : HostOp) (s : State),
    hostApply p op (some s) = (some (hostOnReady p op s).1, (hostOnReady p op s).2))
end

