-- ==== Sys2Proof/Laws/Decode.lean ====
section
/-! SUPPORT. Laws of the decoder: each opcode byte selects exactly one row of the table, the table's lengths are those
of the formula of 30_encoding.md R75, and what decoding a byte does. -/

namespace Sys2Proof

theorem Reg.ofBits_bits (r : Reg) : Reg.ofBits r.bits = r := by cases r <;> decide

theorem Reg.bits_ofBits : ∀ b : BitVec 2, (Reg.ofBits b).bits = b := by decide

/-- The table has a row for each mnemonic of spec/opcode_table.json. -/
theorem opTable_length : opTable.length = 44 := by decide

/-- Every opcode byte selects exactly one row (spec/INDEX.md; 30_encoding.md R77, R81): no row is reached only because
another stands behind it. -/
theorem opTable_selects_one : ∀ op : Byte, (opTable.filter (fun row => row.selects op)).length = 1 := by decide

/-- Every opcode byte selects a row. -/
theorem lookup_total : ∀ op : Byte, (lookup op).isSome = true := by decide

/-- The row an opcode byte selects has the length of R75. -/
theorem lookup_two_eq_opLength :
    ∀ op : Byte, (lookup op).map (fun row => row.two) = some (decide (opLength op = 2)) := by decide

/-- With an operand byte at hand, a row's reading is an instruction. -/
theorem OpRow.read_cons (row : OpRow) (op b : Byte) (rest : List Byte) :
    row.read op (b :: rest) =
      .instr (row.build op (if row.two then b else 0#8)) (if row.two then rest else b :: rest) := by
  unfold OpRow.read
  cases row.two <;> rfl

/-- Under P_NONCANON = ignore the row alone decides what a byte is. -/
theorem decodeWith_ignore (op : Byte) (rest : List Byte) :
    decodeWith .ignore (op :: rest) = ((lookup op).map (fun row => row.read op rest)).getD (.refuse (.noRow op)) := by
  simp only [decodeWith]
  cases lookup op with
  | none => rfl
  | some row => exact ite_self _

/-- A canonical byte decodes alike under every value of P_NONCANON. -/
theorem decodeWith_canonical (nc : NonCanon) (op : Byte) (rest : List Byte)
    (h : (lookup op).map (fun row => row.canonical op) = some true) :
    decodeWith nc (op :: rest) = decodeWith .ignore (op :: rest) := by
  simp only [decodeWith]
  cases hl : lookup op with
  | none => rfl
  | some row => rw [hl] at h; simp only [Option.map_some, Option.some.injEq] at h; simp only [h, if_true]

/-- What a non-canonical byte is under each value of P_NONCANON (R76, R84). -/
theorem decodeWith_nonCanonical (nc : NonCanon) (op : Byte) (rest : List Byte)
    (h : (lookup op).map (fun row => row.canonical op) = some false) :
    decodeWith nc (op :: rest) =
      match nc with
      | .ignore => decodeWith .ignore (op :: rest)
      | .nop => .noop op rest
      | .refuse rule =>
        if rule.accepts op then decodeWith .ignore (op :: rest) else .refuse (.nonCanonical op) := by
  simp only [decodeWith]
  cases hl : lookup op with
  | none => rw [hl] at h; cases h
  | some row =>
    rw [hl] at h
    simp only [Option.map_some, Option.some.injEq] at h
    cases nc <;> simp [h]

/-- The machine's parameters decode as P_NONCANON = ignore. -/
theorem decode_eq (bytes : List Byte) : decode bytes = decodeWith .ignore bytes := rfl

end Sys2Proof
end

