-- ==== Sys2Proof/Laws/State.lean ====
section
/-! SUPPORT. What each named update of the state does to each field, and the register file's two laws: with these as
simp lemmas no proof unfolds a record update. -/

namespace Sys2Proof.Machine

@[simp] theorem State.setReg_x (s : State) (i : Reg) (v : Byte) : (s.setReg i v).x = s.x.set i v := rfl
@[simp] theorem State.setReg_acc (s : State) (i : Reg) (v : Byte) : (s.setReg i v).acc = s.acc := rfl
@[simp] theorem State.setReg_pc (s : State) (i : Reg) (v : Byte) : (s.setReg i v).pc = s.pc := rfl
@[simp] theorem State.setReg_ct (s : State) (i : Reg) (v : Byte) : (s.setReg i v).ct = s.ct := rfl
@[simp] theorem State.setReg_flags (s : State) (i : Reg) (v : Byte) : (s.setReg i v).flags = s.flags := rfl
@[simp] theorem State.setReg_mem (s : State) (i : Reg) (v : Byte) : (s.setReg i v).mem = s.mem := rfl

@[simp] theorem State.setAcc_x (s : State) (v : Byte) : (s.setAcc v).x = s.x := rfl
@[simp] theorem State.setAcc_acc (s : State) (v : Byte) : (s.setAcc v).acc = v := rfl
@[simp] theorem State.setAcc_pc (s : State) (v : Byte) : (s.setAcc v).pc = s.pc := rfl
@[simp] theorem State.setAcc_ct (s : State) (v : Byte) : (s.setAcc v).ct = s.ct := rfl
@[simp] theorem State.setAcc_flags (s : State) (v : Byte) : (s.setAcc v).flags = s.flags := rfl
@[simp] theorem State.setAcc_mem (s : State) (v : Byte) : (s.setAcc v).mem = s.mem := rfl

@[simp] theorem State.setCt_x (s : State) (v : Byte) : (s.setCt v).x = s.x := rfl
@[simp] theorem State.setCt_acc (s : State) (v : Byte) : (s.setCt v).acc = s.acc := rfl
@[simp] theorem State.setCt_pc (s : State) (v : Byte) : (s.setCt v).pc = s.pc := rfl
@[simp] theorem State.setCt_ct (s : State) (v : Byte) : (s.setCt v).ct = v := rfl
@[simp] theorem State.setCt_flags (s : State) (v : Byte) : (s.setCt v).flags = s.flags := rfl
@[simp] theorem State.setCt_mem (s : State) (v : Byte) : (s.setCt v).mem = s.mem := rfl

@[simp] theorem State.setPc_x (s : State) (v : Byte) : (s.setPc v).x = s.x := rfl
@[simp] theorem State.setPc_acc (s : State) (v : Byte) : (s.setPc v).acc = s.acc := rfl
@[simp] theorem State.setPc_pc (s : State) (v : Byte) : (s.setPc v).pc = v := rfl
@[simp] theorem State.setPc_ct (s : State) (v : Byte) : (s.setPc v).ct = s.ct := rfl
@[simp] theorem State.setPc_flags (s : State) (v : Byte) : (s.setPc v).flags = s.flags := rfl
@[simp] theorem State.setPc_mem (s : State) (v : Byte) : (s.setPc v).mem = s.mem := rfl

@[simp] theorem State.advance_x (s : State) (n : Byte) : (s.advance n).x = s.x := rfl
@[simp] theorem State.advance_acc (s : State) (n : Byte) : (s.advance n).acc = s.acc := rfl
@[simp] theorem State.advance_pc (s : State) (n : Byte) : (s.advance n).pc = s.pc + n := rfl
@[simp] theorem State.advance_ct (s : State) (n : Byte) : (s.advance n).ct = s.ct := rfl
@[simp] theorem State.advance_flags (s : State) (n : Byte) : (s.advance n).flags = s.flags := rfl
@[simp] theorem State.advance_mem (s : State) (n : Byte) : (s.advance n).mem = s.mem := rfl

@[simp] theorem State.setFlags_x (s : State) (f : Flags) : (s.setFlags f).x = s.x := rfl
@[simp] theorem State.setFlags_acc (s : State) (f : Flags) : (s.setFlags f).acc = s.acc := rfl
@[simp] theorem State.setFlags_pc (s : State) (f : Flags) : (s.setFlags f).pc = s.pc := rfl
@[simp] theorem State.setFlags_ct (s : State) (f : Flags) : (s.setFlags f).ct = s.ct := rfl
@[simp] theorem State.setFlags_flags (s : State) (f : Flags) : (s.setFlags f).flags = f := rfl
@[simp] theorem State.setFlags_mem (s : State) (f : Flags) : (s.setFlags f).mem = s.mem := rfl

@[simp] theorem State.setMem_x (s : State) (m : Memory) : (s.setMem m).x = s.x := rfl
@[simp] theorem State.setMem_acc (s : State) (m : Memory) : (s.setMem m).acc = s.acc := rfl
@[simp] theorem State.setMem_pc (s : State) (m : Memory) : (s.setMem m).pc = s.pc := rfl
@[simp] theorem State.setMem_ct (s : State) (m : Memory) : (s.setMem m).ct = s.ct := rfl
@[simp] theorem State.setMem_flags (s : State) (m : Memory) : (s.setMem m).flags = s.flags := rfl
@[simp] theorem State.setMem_mem (s : State) (m : Memory) : (s.setMem m).mem = m := rfl

@[simp] theorem State.setCf_x (s : State) (v : Bool) : (s.setCf v).x = s.x := rfl
@[simp] theorem State.setCf_acc (s : State) (v : Bool) : (s.setCf v).acc = s.acc := rfl
@[simp] theorem State.setCf_pc (s : State) (v : Bool) : (s.setCf v).pc = s.pc := rfl
@[simp] theorem State.setCf_ct (s : State) (v : Bool) : (s.setCf v).ct = s.ct := rfl
@[simp] theorem State.setCf_flags (s : State) (v : Bool) : (s.setCf v).flags = { s.flags with cf := v } := rfl
@[simp] theorem State.setCf_mem (s : State) (v : Bool) : (s.setCf v).mem = s.mem := rfl

@[simp] theorem State.setZf_x (s : State) (v : Bool) : (s.setZf v).x = s.x := rfl
@[simp] theorem State.setZf_acc (s : State) (v : Bool) : (s.setZf v).acc = s.acc := rfl
@[simp] theorem State.setZf_pc (s : State) (v : Bool) : (s.setZf v).pc = s.pc := rfl
@[simp] theorem State.setZf_ct (s : State) (v : Bool) : (s.setZf v).ct = s.ct := rfl
@[simp] theorem State.setZf_flags (s : State) (v : Bool) : (s.setZf v).flags = { s.flags with zf := v } := rfl
@[simp] theorem State.setZf_mem (s : State) (v : Bool) : (s.setZf v).mem = s.mem := rfl

@[simp] theorem State.forceWrite_x (s : State) (a v : Byte) : (s.forceWrite a v).x = s.x := rfl
@[simp] theorem State.forceWrite_acc (s : State) (a v : Byte) : (s.forceWrite a v).acc = s.acc := rfl
@[simp] theorem State.forceWrite_pc (s : State) (a v : Byte) : (s.forceWrite a v).pc = s.pc := rfl
@[simp] theorem State.forceWrite_ct (s : State) (a v : Byte) : (s.forceWrite a v).ct = s.ct := rfl
@[simp] theorem State.forceWrite_flags (s : State) (a v : Byte) : (s.forceWrite a v).flags = s.flags := rfl
@[simp] theorem State.forceWrite_mem (s : State) (a v : Byte) : (s.forceWrite a v).mem = s.mem.write a.toNat v := rfl

@[simp] theorem State.memReset_x (s : State) (c : Bool) : (s.memReset c).x = s.x := rfl
@[simp] theorem State.memReset_acc (s : State) (c : Bool) : (s.memReset c).acc = s.acc := rfl
@[simp] theorem State.memReset_pc (s : State) (c : Bool) : (s.memReset c).pc = s.pc := rfl
@[simp] theorem State.memReset_ct (s : State) (c : Bool) : (s.memReset c).ct = s.ct := rfl
@[simp] theorem State.memReset_flags (s : State) (c : Bool) : (s.memReset c).flags = s.flags := rfl
@[simp] theorem State.memReset_mem (s : State) (c : Bool) : (s.memReset c).mem = s.mem.resetPort c := rfl

/-! ### The register file (10_state.md R20) -/

@[simp] theorem Regs.get_set_same (x : Regs) (i : Reg) (v : Byte) : (x.set i v).get i = v := by
  cases i <;> rfl

theorem Regs.get_set_other (x : Regs) (v : Byte) {i k : Reg} (h : k ≠ i) : (x.set i v).get k = x.get k := by
  cases i <;> cases k <;> first | rfl | exact absurd rfl h

@[simp] theorem State.reg_setReg_same (s : State) (i : Reg) (v : Byte) : (s.setReg i v).reg i = v :=
  Regs.get_set_same s.x i v

theorem State.reg_setReg_other (s : State) (v : Byte) {i k : Reg} (h : k ≠ i) : (s.setReg i v).reg k = s.reg k :=
  Regs.get_set_other s.x v h

/-! ### What each update leaves of the registers and of memory -/

@[simp] theorem State.reg_setAcc (s : State) (v : Byte) (k : Reg) : (s.setAcc v).reg k = s.reg k := rfl
@[simp] theorem State.reg_setCt (s : State) (v : Byte) (k : Reg) : (s.setCt v).reg k = s.reg k := rfl
@[simp] theorem State.reg_setPc (s : State) (v : Byte) (k : Reg) : (s.setPc v).reg k = s.reg k := rfl
@[simp] theorem State.reg_advance (s : State) (n : Byte) (k : Reg) : (s.advance n).reg k = s.reg k := rfl
@[simp] theorem State.reg_setFlags (s : State) (f : Flags) (k : Reg) : (s.setFlags f).reg k = s.reg k := rfl
@[simp] theorem State.reg_setMem (s : State) (m : Memory) (k : Reg) : (s.setMem m).reg k = s.reg k := rfl
@[simp] theorem State.reg_setCf (s : State) (v : Bool) (k : Reg) : (s.setCf v).reg k = s.reg k := rfl
@[simp] theorem State.reg_setZf (s : State) (v : Bool) (k : Reg) : (s.setZf v).reg k = s.reg k := rfl
@[simp] theorem State.reg_forceWrite (s : State) (a v : Byte) (k : Reg) : (s.forceWrite a v).reg k = s.reg k := rfl
@[simp] theorem State.reg_memReset (s : State) (c : Bool) (k : Reg) : (s.memReset c).reg k = s.reg k := rfl

@[simp] theorem State.readByte_setReg (s : State) (i : Reg) (v : Byte) (c : Byte) : (s.setReg i v).readByte c = s.readByte c := rfl
@[simp] theorem State.readByte_setAcc (s : State) (v : Byte) (c : Byte) : (s.setAcc v).readByte c = s.readByte c := rfl
@[simp] theorem State.readByte_setCt (s : State) (v : Byte) (c : Byte) : (s.setCt v).readByte c = s.readByte c := rfl
@[simp] theorem State.readByte_setPc (s : State) (v : Byte) (c : Byte) : (s.setPc v).readByte c = s.readByte c := rfl
@[simp] theorem State.readByte_advance (s : State) (n : Byte) (c : Byte) : (s.advance n).readByte c = s.readByte c := rfl
@[simp] theorem State.readByte_setFlags (s : State) (f : Flags) (c : Byte) : (s.setFlags f).readByte c = s.readByte c := rfl
@[simp] theorem State.readByte_setCf (s : State) (v : Bool) (c : Byte) : (s.setCf v).readByte c = s.readByte c := rfl
@[simp] theorem State.readByte_setZf (s : State) (v : Bool) (c : Byte) : (s.setZf v).readByte c = s.readByte c := rfl

/-! ### The state after reset (10_state.md R35) -/

@[simp] theorem State.reset_x : State.reset.x = ⟨0#8, 0#8, 0#8, 0#8⟩ := rfl
@[simp] theorem State.reset_acc : State.reset.acc = 0#8 := rfl
@[simp] theorem State.reset_pc : State.reset.pc = 0#8 := rfl
@[simp] theorem State.reset_ct : State.reset.ct = 0#8 := rfl
@[simp] theorem State.reset_flags : State.reset.flags = ⟨false, false, false, false⟩ := rfl
@[simp] theorem State.reset_mem : State.reset.mem = [] := rfl

@[simp] theorem State.reset_reg (k : Reg) : State.reset.reg k = 0#8 := by cases k <;> rfl

end Sys2Proof.Machine
end

