-- ==== Sys2Proof/Laws/Memory.lean ====
section
/-! SUPPORT. The laws of memory: reading after each operation, and that every operation keeps the canonical form. The
reading laws hold of EVERY list of cells, canonical or not. -/

namespace Sys2Proof.Machine

/-! ### Reading -/

@[simp] theorem Memory.read_nil (a : Nat) : Memory.read [] a = 0#8 := rfl

theorem Memory.read_cons (k : Nat) (v : Byte) (rest : Memory) (a : Nat) :
    Memory.read ((k, v) :: rest) a = if k = a then v else Memory.read rest a := rfl

theorem Memory.read_erase_same (m : Memory) (a : Nat) : (m.erase a).read a = 0#8 := by
  induction m with
  | nil => rfl
  | cons c rest ih =>
    obtain ⟨k, v⟩ := c
    by_cases h : k = a <;> simp [Memory.erase, Memory.read_cons, h, ih]

theorem Memory.read_erase_other (m : Memory) {a b : Nat} (h : b ≠ a) : (m.erase a).read b = m.read b := by
  induction m with
  | nil => rfl
  | cons c rest ih =>
    obtain ⟨k, v⟩ := c
    by_cases hk : k = a
    · subst hk; simp [Memory.erase, Memory.read_cons, ih, Ne.symm h]
    · simp [Memory.erase, Memory.read_cons, hk, ih]

/-- Insertion shows at its address, if no entry of that address stands before it. -/
theorem Memory.read_insert_same (m : Memory) (a : Nat) (v : Byte) :
    ((m.erase a).insert a v).read a = v := by
  induction m with
  | nil => simp [Memory.erase, Memory.insert, Memory.read_cons]
  | cons c rest ih =>
    obtain ⟨k, w⟩ := c
    by_cases hk : k = a
    · simp [Memory.erase, hk, ih]
    · by_cases hlt : a < k <;> simp [Memory.erase, Memory.insert, Memory.read_cons, hk, hlt, ih]

theorem Memory.read_insert_other (m : Memory) (v : Byte) {a b : Nat} (h : b ≠ a) :
    (m.insert a v).read b = m.read b := by
  induction m with
  | nil => simp [Memory.insert, Memory.read_cons, Ne.symm h]
  | cons c rest ih =>
    obtain ⟨k, w⟩ := c
    by_cases hlt : a < k <;> simp [Memory.insert, Memory.read_cons, hlt, ih, Ne.symm h]

/-- A read after a write to the same cell gives the byte written. -/
theorem Memory.read_write_same (m : Memory) (a : Nat) (v : Byte) : (m.write a v).read a = v := by
  unfold Memory.write
  split
  · next h => rw [h]; exact m.read_erase_same a
  · exact m.read_insert_same a v

/-- A write leaves every other cell alone. -/
theorem Memory.read_write_other (m : Memory) (v : Byte) {a b : Nat} (h : b ≠ a) :
    (m.write a v).read b = m.read b := by
  unfold Memory.write
  split
  · exact m.read_erase_other h
  · rw [Memory.read_insert_other _ v h, Memory.read_erase_other m h]

theorem Memory.read_clearFrom (m : Memory) (lo a : Nat) :
    (m.clearFrom lo).read a = if a < lo then m.read a else 0#8 := by
  induction m with
  | nil => simp [Memory.clearFrom]
  | cons c rest ih =>
    obtain ⟨k, v⟩ := c
    by_cases hk : k < lo
    · by_cases hka : k = a
      · subst hka; simp [Memory.clearFrom, Memory.read_cons, hk]
      · simp [Memory.clearFrom, Memory.read_cons, hk, hka, ih]
    · by_cases hka : k = a
      · subst hka; simp [Memory.clearFrom, hk, ih]
      · simp [Memory.clearFrom, Memory.read_cons, hk, hka, ih]

/-- The reset port's effect on one cell (20_memory.md R45). -/
theorem Memory.read_resetPort (m : Memory) (clearProgram : Bool) (a : Nat) :
    (m.resetPort clearProgram).read a = if clearProgram = false ∧ a < Config.partBase then m.read a else 0#8 := by
  cases clearProgram <;> simp [Memory.resetPort, Memory.read_clearFrom]

theorem Memory.read_ofImageFrom_below (image : List Byte) {lo a : Nat} (h : a < lo) :
    (Memory.ofImageFrom lo image).read a = 0#8 := by
  induction image generalizing lo with
  | nil => rfl
  | cons b rest ih =>
    have hne : lo ≠ a := by omega
    unfold Memory.ofImageFrom
    split
    · exact ih (by omega)
    · simp [Memory.read_cons, hne, ih (lo := lo + 1) (by omega)]

theorem Memory.read_ofImageFrom (image : List Byte) (lo k : Nat) :
    (Memory.ofImageFrom lo image).read (lo + k) = image.getD k 0#8 := by
  induction image generalizing lo k with
  | nil => rfl
  | cons b rest ih =>
    unfold Memory.ofImageFrom
    cases k with
    | zero =>
      split
      · next h => simp [h, Memory.read_ofImageFrom_below rest (Nat.lt_succ_self lo)]
      · simp [Memory.read_cons]
    | succ k =>
      have hk : lo + (k + 1) = lo + 1 + k := by omega
      split
      · rw [hk, ih]; simp
      · rw [hk, Memory.read_cons, if_neg (by omega), ih]; simp

/-- Byte `k` of the image stands in cell `k`; every other cell reads 0x00 (20_memory.md R46). -/
theorem Memory.read_ofImage (image : List Byte) (k : Nat) :
    (Memory.ofImage image).read k = image.getD k 0#8 := by
  have h := Memory.read_ofImageFrom image 0 k
  rwa [Nat.zero_add] at h

/-! ### The canonical form -/

theorem Memory.wfFrom_cons (lo k : Nat) (v : Byte) (rest : Memory) :
    Memory.wfFrom lo ((k, v) :: rest) = true ↔
      lo ≤ k ∧ k < Config.memSize ∧ v ≠ 0#8 ∧ Memory.wfFrom (k + 1) rest = true := by
  simp [Memory.wfFrom, and_assoc]

theorem Memory.wfFrom_mono (m : Memory) {lo hi : Nat} (h : lo ≤ hi) (w : Memory.wfFrom hi m = true) :
    Memory.wfFrom lo m = true := by
  cases m with
  | nil => rfl
  | cons c rest =>
    obtain ⟨k, v⟩ := c
    rw [Memory.wfFrom_cons] at w ⊢
    exact ⟨by omega, w.2⟩

theorem Memory.wfFrom_erase (m : Memory) (a lo : Nat) (w : Memory.wfFrom lo m = true) :
    Memory.wfFrom lo (m.erase a) = true := by
  induction m generalizing lo with
  | nil => rfl
  | cons c rest ih =>
    obtain ⟨k, v⟩ := c
    rw [Memory.wfFrom_cons] at w
    unfold Memory.erase
    split
    · exact ih lo (Memory.wfFrom_mono rest (by omega) w.2.2.2)
    · rw [Memory.wfFrom_cons]
      exact ⟨w.1, w.2.1, w.2.2.1, ih (k + 1) w.2.2.2⟩

/-- Where an address was erased, insertion keeps the canonical form. -/
theorem Memory.wfFrom_insert (m : Memory) {a lo : Nat} {v : Byte} (hlo : lo ≤ a) (ha : a < Config.memSize)
    (hv : v ≠ 0#8) (w : Memory.wfFrom lo m = true) : Memory.wfFrom lo ((m.erase a).insert a v) = true := by
  induction m generalizing lo with
  | nil => simp [Memory.erase, Memory.insert, Memory.wfFrom, hlo, ha, hv]
  | cons c rest ih =>
    obtain ⟨k, u⟩ := c
    rw [Memory.wfFrom_cons] at w
    obtain ⟨h1, h2, h3, h4⟩ := w
    by_cases hk : k = a
    · simp only [Memory.erase, hk, if_true]
      exact ih hlo (Memory.wfFrom_mono rest (by omega) h4)
    · by_cases hlt : a < k
      · simp only [Memory.erase, hk, if_false, Memory.insert, hlt, if_true, Memory.wfFrom_cons]
        exact ⟨hlo, ha, hv, by omega, h2, h3, Memory.wfFrom_erase rest a (k + 1) h4⟩
      · simp only [Memory.erase, hk, if_false, Memory.insert, hlt, Memory.wfFrom_cons]
        exact ⟨h1, h2, h3, ih (by omega) h4⟩

/-- A write to an address of the machine keeps the canonical form. -/
theorem Memory.wf_write (m : Memory) {a : Nat} (v : Byte) (ha : a < Config.memSize) (w : m.wf = true) :
    (m.write a v).wf = true := by
  unfold Memory.write
  split
  · exact Memory.wfFrom_erase m a 0 w
  · next hv => exact Memory.wfFrom_insert m (Nat.zero_le a) ha hv w

theorem Memory.wfFrom_clearFrom (m : Memory) (cut lo : Nat) (w : Memory.wfFrom lo m = true) :
    Memory.wfFrom lo (m.clearFrom cut) = true := by
  induction m generalizing lo with
  | nil => rfl
  | cons c rest ih =>
    obtain ⟨k, v⟩ := c
    rw [Memory.wfFrom_cons] at w
    unfold Memory.clearFrom
    split
    · rw [Memory.wfFrom_cons]
      exact ⟨w.1, w.2.1, w.2.2.1, ih (k + 1) w.2.2.2⟩
    · exact ih lo (Memory.wfFrom_mono rest (by omega) w.2.2.2)

/-- The reset port keeps the canonical form. -/
theorem Memory.wf_resetPort (m : Memory) (clearProgram : Bool) (w : m.wf = true) :
    (m.resetPort clearProgram).wf = true := by
  unfold Memory.resetPort
  split <;> exact Memory.wfFrom_clearFrom m _ 0 w

theorem Memory.wfFrom_ofImageFrom (image : List Byte) (lo : Nat) (h : lo + image.length ≤ Config.memSize) :
    Memory.wfFrom lo (Memory.ofImageFrom lo image) = true := by
  induction image generalizing lo with
  | nil => rfl
  | cons b rest ih =>
    simp only [List.length_cons] at h
    have hr := ih (lo + 1) (by omega)
    unfold Memory.ofImageFrom
    split
    · exact Memory.wfFrom_mono _ (Nat.le_succ lo) hr
    · next hb => rw [Memory.wfFrom_cons]; exact ⟨Nat.le_refl lo, by omega, hb, hr⟩

/-- An image is accepted exactly when it has at most 128 bytes (20_memory.md R46). -/
theorem imageWf_iff (image : List Byte) : imageWf image = true ↔ image.length ≤ 128 := decide_eq_true_iff

/-- An accepted image gives a canonical memory. -/
theorem Memory.wf_ofImage (image : List Byte) (h : imageWf image = true) : (Memory.ofImage image).wf = true := by
  have hl := (imageWf_iff image).mp h
  have hc : 128 ≤ Config.memSize := by decide
  exact Memory.wfFrom_ofImageFrom image 0 (by omega)

/-- The reset state's memory is canonical. -/
theorem State.reset_mem_wf : State.reset.mem.wf = true := rfl

/-! ### The same laws for a state's cells -/

theorem Byte.toNat_lt_memSize (a : Byte) : a.toNat < Config.memSize := a.isLt

theorem Byte.toNat_ne {a b : Byte} (h : b ≠ a) : b.toNat ≠ a.toNat := fun e => h (BitVec.eq_of_toNat_eq e)

theorem State.readByte_eq (s : State) (a : Byte) : s.readByte a = s.mem.read a.toNat := rfl

theorem State.readByte_forceWrite_self (s : State) (a v : Byte) : (s.forceWrite a v).readByte a = v :=
  Memory.read_write_same s.mem a.toNat v

theorem State.readByte_forceWrite_other (s : State) (v : Byte) {a b : Byte} (h : b ≠ a) :
    (s.forceWrite a v).readByte b = s.readByte b :=
  Memory.read_write_other s.mem v (Byte.toNat_ne h)

theorem State.forceWrite_wf (s : State) (a v : Byte) (w : s.mem.wf = true) : (s.forceWrite a v).mem.wf = true :=
  Memory.wf_write s.mem v (Byte.toNat_lt_memSize a) w

/-- Writing to a cell the byte it holds leaves a canonical memory as it is: equal cells are equal data. -/
theorem Memory.canonical_ext (m n : Memory) (hm : m.wf = true) (hn : n.wf = true)
    (h : ∀ a, m.read a = n.read a) : m = n := by
  suffices H : ∀ (m n : Memory) (lo : Nat), Memory.wfFrom lo m = true → Memory.wfFrom lo n = true →
      (∀ a, lo ≤ a → m.read a = n.read a) → m = n from H m n 0 hm hn (fun a _ => h a)
  have below : ∀ (m : Memory) (lo a : Nat), Memory.wfFrom lo m = true → a < lo → m.read a = 0#8 := by
    intro m
    induction m with
    | nil => intros; rfl
    | cons c rest ih =>
      obtain ⟨k, v⟩ := c
      intro lo a w ha
      rw [Memory.wfFrom_cons] at w
      rw [Memory.read_cons, if_neg (by omega)]
      exact ih (k + 1) a w.2.2.2 (by omega)
  intro m
  induction m with
  | nil =>
    intro n lo _ wn h
    cases n with
    | nil => rfl
    | cons c rest =>
      obtain ⟨k, v⟩ := c
      rw [Memory.wfFrom_cons] at wn
      have := h k wn.1
      simp [Memory.read_cons] at this
      exact absurd this.symm wn.2.2.1
  | cons c rest ih =>
    obtain ⟨k, v⟩ := c
    intro n lo wm wn h
    rw [Memory.wfFrom_cons] at wm
    cases n with
    | nil =>
      have := h k wm.1
      simp [Memory.read_cons] at this
      exact absurd this wm.2.2.1
    | cons d rest' =>
      obtain ⟨j, u⟩ := d
      rw [Memory.wfFrom_cons] at wn
      have hk := h k wm.1
      have hj := h j wn.1
      simp only [Memory.read_cons, if_true] at hk hj
      have hkj : k = j := by
        rcases Nat.lt_trichotomy k j with hlt | heq | hgt
        · rw [if_neg (by omega), below rest' (j + 1) k wn.2.2.2 (by omega)] at hk
          exact absurd hk wm.2.2.1
        · exact heq
        · rw [if_neg (by omega), below rest (k + 1) j wm.2.2.2 (by omega)] at hj
          exact absurd hj.symm wn.2.2.1
      subst hkj
      rw [if_pos rfl] at hk
      subst hk
      congr 1
      refine ih rest' (k + 1) wm.2.2.2 wn.2.2.2 (fun a ha => ?_)
      have := h a (by omega)
      rwa [Memory.read_cons, Memory.read_cons, if_neg (by omega), if_neg (by omega)] at this

end Sys2Proof.Machine
end

