-- ==== Sys2Proof/Laws/Ops.lean ====
section
/-! SUPPORT. What each shared operation can do, said once: the provers cite these instead of unfolding. -/

namespace Sys2Proof.Machine

/-! ### Fetch (30_encoding.md R73) -/

/-- The two bytes a fetch gives: at PC and at PC + 1 modulo 256. -/
theorem State.fetchBytes_eq (s : State) : s.fetchBytes = [s.readByte s.pc, s.readByte (s.pc + 1#8)] := rfl

/-! ### Addresses (20_memory.md R48, R50) -/

/-- The data-address decoder always answers in the data partition. -/
theorem dataAddr_high : ∀ a : Byte, 0x80#8 ≤ dataAddr a := by decide

/-- An address is in the program partition exactly when its number is below `Config.partBase`. -/
theorem lt_partBase_iff (a : Byte) : a.toNat < Config.partBase ↔ a < 0x80#8 := Iff.rfl

/-! ### The restricted write port (20_memory.md R43) and the store -/

theorem State.restrictedWrite_ok (s : State) {a : Byte} (v : Byte) (h : ¬ a < 0x80#8) :
    s.restrictedWrite a v = .ok (s.forceWrite a v) := if_neg h

theorem State.restrictedWrite_error (s : State) {a : Byte} (v : Byte) (h : a < 0x80#8) :
    s.restrictedWrite a v = .error (.protectedRegion a) := if_pos h

/-- A store faults when the address it presents is in the program partition, and writes its cell otherwise. -/
theorem storeWith_eq (mode : StoreAddr) (a v : Byte) (s : State) :
    storeWith mode a v s =
      if storeAddr mode a < 0x80#8 then .fault (.protectedRegion (storeAddr mode a))
      else .next ((s.advance 2#8).forceWrite (storeAddr mode a) v) := by
  unfold storeWith
  by_cases h : storeAddr mode a < 0x80#8
  · rw [State.restrictedWrite_error _ v h, if_pos h]; rfl
  · rw [State.restrictedWrite_ok _ v h, if_neg h]

/-! ### Engine reset (70_reset_and_hazards.md R200) -/

@[simp] theorem State.engineReset_x (s : State) (c : Bool) : (s.engineReset c).x = ⟨0#8, 0#8, 0#8, 0#8⟩ := rfl
@[simp] theorem State.engineReset_acc (s : State) (c : Bool) : (s.engineReset c).acc = 0#8 := rfl
@[simp] theorem State.engineReset_pc (s : State) (c : Bool) : (s.engineReset c).pc = 0#8 := rfl
@[simp] theorem State.engineReset_ct (s : State) (c : Bool) : (s.engineReset c).ct = 0#8 := rfl
@[simp] theorem State.engineReset_flags (s : State) (c : Bool) :
    (s.engineReset c).flags = ⟨false, false, false, false⟩ := rfl
@[simp] theorem State.engineReset_mem (s : State) (c : Bool) : (s.engineReset c).mem = s.mem.resetPort c := rfl
@[simp] theorem State.engineReset_reg (s : State) (c : Bool) (k : Reg) : (s.engineReset c).reg k = 0#8 := by
  cases k <;> rfl

/-- One cell after the reset port: kept in the program partition unless that is cleared too, 0x00 otherwise. -/
theorem State.readByte_engineReset (s : State) (c : Bool) (a : Byte) :
    (s.engineReset c).readByte a = if c = false ∧ a < 0x80#8 then s.readByte a else 0#8 :=
  Memory.read_resetPort s.mem c a.toNat

/-! ### The jump (42_control.md R141) -/

/-- A jump ends with PC at its target or past its bytes, and nothing else changed. -/
theorem jumpWith_eq (consume : JumpConsume) (sel : FlagSel) (w d : Bool) (t : Byte) (s : State) :
    jumpWith consume sel w d t s =
      .next (s.setPc (if jumpTaken (s.flags.get sel) w d then t
        else s.pc + (match consume with | .always => 2#8 | .takenOnly => 1#8))) := by
  unfold jumpWith
  split
  · simp_all
  · cases consume <;> simp_all [State.advance, State.setPc]

/-! ### What one instruction can do to memory and to the flags, under any parameters -/

/-- Memory after an instruction: as before, or one cell of the data partition written, or reset. -/
theorem execWith_mem_cases (p : Params) (i : Instr) (s t : State) (h : execWith p i s = .next t) :
    t.mem = s.mem ∨
    (∃ a r, i = .movMR a r ∧ ¬ storeAddr p.storeAddr a < 0x80#8 ∧
      t.mem = s.mem.write (storeAddr p.storeAddr a).toNat (s.reg r)) ∨
    (i = .reset ∧ t.mem = s.mem.resetPort p.resetClearsProgram) := by
  cases i with
  | movMR a r =>
    simp only [execWith, storeWith_eq] at h
    split at h
    · cases h
    · next hb => cases h; exact .inr (.inl ⟨a, r, rfl, hb, rfl⟩)
  | reset => cases h; exact .inr (.inr ⟨rfl, rfl⟩)
  | xorAcc r => left; simp only [execWith, execXorAccWith] at h; split at h <;> cases h <;> rfl
  | ret => left; simp only [execWith, execRetWith] at h; split at h <;> cases h <;> rfl
  | jnc t' | jns t' | jnz t' | jnp t' | jc t' | js t' | jz t' | jp t' | jcD t' | jsD t' | jzD t' | jpD t'
  | jncD t' | jnsD t' | jnzD t' | jnpD t' => left; simp only [execWith, jumpWith_eq] at h; cases h; rfl
  | _ => left; cases h; rfl

/-- Flags after an instruction: as before, or CF or ZF set or cleared by family 0xE, or all four 0 by RESET. -/
theorem execWith_flags_cases (p : Params) (i : Instr) (s t : State) (h : execWith p i s = .next t) :
    t.flags = s.flags ∨
    (i = .clc ∧ t.flags = { s.flags with cf := false }) ∨
    (i = .stc ∧ t.flags = { s.flags with cf := true }) ∨
    (i = .clz ∧ t.flags = { s.flags with zf := false }) ∨
    (i = .stz ∧ t.flags = { s.flags with zf := true }) ∨
    (i = .reset ∧ t.flags = ⟨false, false, false, false⟩) := by
  cases i with
  | movMR a r =>
    left
    simp only [execWith, storeWith_eq] at h
    split at h <;> cases h
    rfl
  | clc => cases h; exact .inr (.inl ⟨rfl, rfl⟩)
  | stc => cases h; exact .inr (.inr (.inl ⟨rfl, rfl⟩))
  | clz => cases h; exact .inr (.inr (.inr (.inl ⟨rfl, rfl⟩)))
  | stz => cases h; exact .inr (.inr (.inr (.inr (.inl ⟨rfl, rfl⟩))))
  | reset => cases h; exact .inr (.inr (.inr (.inr (.inr ⟨rfl, rfl⟩))))
  | xorAcc r => left; simp only [execWith, execXorAccWith] at h; split at h <;> cases h <;> rfl
  | ret => left; simp only [execWith, execRetWith] at h; split at h <;> cases h <;> rfl
  | jnc t' | jns t' | jnz t' | jnp t' | jc t' | js t' | jz t' | jp t' | jcD t' | jsD t' | jzD t' | jpD t'
  | jncD t' | jnsD t' | jnzD t' | jnpD t' => left; simp only [execWith, jumpWith_eq] at h; cases h; rfl
  | _ => left; cases h; rfl

/-- What a step of any machine built on `runDecoded` did: it ran a decoded instruction, or skipped a byte that is a
no-op only under P_NONCANON = nop. -/
theorem runDecoded_next (run : Instr → State → Host.Outcome State Fault Refusal) (d : Decoded) (s t : State)
    (h : runDecoded run d s = .next t) :
    (∃ i rest, d = .instr i rest ∧ run i s = .next t) ∨ (∃ op rest, d = .noop op rest ∧ t = s.advance 1#8) := by
  cases d with
  | instr i rest => exact .inl ⟨i, rest, rfl, h⟩
  | noop op rest => cases h; exact .inr ⟨op, rest, rfl, rfl⟩
  | refuse why => cases h

end Sys2Proof.Machine
end

