-- ==== Sys2Proof/Laws/PerInstr.lean ====
section
/-! SUPPORT. The per-instruction statement of family `CanonicalForm`: what the encoder gives for an instruction is a
canonical opcode byte of the length of 30_encoding.md R75, so the assembler's bytes (R84) are a whole instruction. -/

namespace Sys2Proof.Laws.CanonicalForm

/-- The encoding of `i` has the length of `i`; its opcode byte has that length by the formula of R75 and has every
ignored bit of R76 clear in the row it selects. -/
def Statement (i : Instr) : Prop :=
  (encode i).length = i.length ∧
  ∀ op ∈ (encode i).head?, opLength op = i.length ∧ (lookup op).map (fun row => row.canonical op) = some true

theorem movRR (d : Reg) (r : Reg) : Statement (.movRR d r) := by
  cases d <;> cases r <;> exact ⟨rfl, fun op h => by cases h; exact ⟨rfl, rfl⟩⟩

theorem movRI (d : Reg) (imm : Byte) : Statement (.movRI d imm) := by
  cases d <;> exact ⟨rfl, fun op h => by cases h; exact ⟨rfl, rfl⟩⟩

theorem movRM (d : Reg) (a : Byte) : Statement (.movRM d a) := by
  cases d <;> exact ⟨rfl, fun op h => by cases h; exact ⟨rfl, rfl⟩⟩

theorem movRAcc (d : Reg) : Statement (.movRAcc d) := by
  cases d <;> exact ⟨rfl, fun op h => by cases h; exact ⟨rfl, rfl⟩⟩

theorem movRPc (d : Reg) : Statement (.movRPc d) := by
  cases d <;> exact ⟨rfl, fun op h => by cases h; exact ⟨rfl, rfl⟩⟩

theorem movMR (a : Byte) (r : Reg) : Statement (.movMR a r) := by
  cases r <;> exact ⟨rfl, fun op h => by cases h; exact ⟨rfl, rfl⟩⟩

theorem movAccI (imm : Byte) : Statement (.movAccI imm) := by
  exact ⟨rfl, fun op h => by cases h; exact ⟨rfl, rfl⟩⟩

theorem movAccM (a : Byte) : Statement (.movAccM a) := by
  exact ⟨rfl, fun op h => by cases h; exact ⟨rfl, rfl⟩⟩

theorem incR (r : Reg) : Statement (.incR r) := by
  cases r <;> exact ⟨rfl, fun op h => by cases h; exact ⟨rfl, rfl⟩⟩

theorem decR (r : Reg) : Statement (.decR r) := by
  cases r <;> exact ⟨rfl, fun op h => by cases h; exact ⟨rfl, rfl⟩⟩

theorem jnc (t : Byte) : Statement (.jnc t) := by
  exact ⟨rfl, fun op h => by cases h; exact ⟨rfl, rfl⟩⟩

theorem jns (t : Byte) : Statement (.jns t) := by
  exact ⟨rfl, fun op h => by cases h; exact ⟨rfl, rfl⟩⟩

theorem jnz (t : Byte) : Statement (.jnz t) := by
  exact ⟨rfl, fun op h => by cases h; exact ⟨rfl, rfl⟩⟩

theorem jnp (t : Byte) : Statement (.jnp t) := by
  exact ⟨rfl, fun op h => by cases h; exact ⟨rfl, rfl⟩⟩

theorem jc (t : Byte) : Statement (.jc t) := by
  exact ⟨rfl, fun op h => by cases h; exact ⟨rfl, rfl⟩⟩

theorem js (t : Byte) : Statement (.js t) := by
  exact ⟨rfl, fun op h => by cases h; exact ⟨rfl, rfl⟩⟩

theorem jz (t : Byte) : Statement (.jz t) := by
  exact ⟨rfl, fun op h => by cases h; exact ⟨rfl, rfl⟩⟩

theorem jp (t : Byte) : Statement (.jp t) := by
  exact ⟨rfl, fun op h => by cases h; exact ⟨rfl, rfl⟩⟩

theorem jcD (t : Byte) : Statement (.jcD t) := by
  exact ⟨rfl, fun op h => by cases h; exact ⟨rfl, rfl⟩⟩

theorem jsD (t : Byte) : Statement (.jsD t) := by
  exact ⟨rfl, fun op h => by cases h; exact ⟨rfl, rfl⟩⟩

theorem jzD (t : Byte) : Statement (.jzD t) := by
  exact ⟨rfl, fun op h => by cases h; exact ⟨rfl, rfl⟩⟩

theorem jpD (t : Byte) : Statement (.jpD t) := by
  exact ⟨rfl, fun op h => by cases h; exact ⟨rfl, rfl⟩⟩

theorem jncD (t : Byte) : Statement (.jncD t) := by
  exact ⟨rfl, fun op h => by cases h; exact ⟨rfl, rfl⟩⟩

theorem jnsD (t : Byte) : Statement (.jnsD t) := by
  exact ⟨rfl, fun op h => by cases h; exact ⟨rfl, rfl⟩⟩

theorem jnzD (t : Byte) : Statement (.jnzD t) := by
  exact ⟨rfl, fun op h => by cases h; exact ⟨rfl, rfl⟩⟩

theorem jnpD (t : Byte) : Statement (.jnpD t) := by
  exact ⟨rfl, fun op h => by cases h; exact ⟨rfl, rfl⟩⟩

theorem decAcc : Statement (.decAcc) := by
  exact ⟨rfl, fun op h => by cases h; exact ⟨rfl, rfl⟩⟩

theorem incAcc : Statement (.incAcc) := by
  exact ⟨rfl, fun op h => by cases h; exact ⟨rfl, rfl⟩⟩

theorem clrAcc : Statement (.clrAcc) := by
  exact ⟨rfl, fun op h => by cases h; exact ⟨rfl, rfl⟩⟩

theorem andAcc (r : Reg) : Statement (.andAcc r) := by
  cases r <;> exact ⟨rfl, fun op h => by cases h; exact ⟨rfl, rfl⟩⟩

theorem orAcc (r : Reg) : Statement (.orAcc r) := by
  cases r <;> exact ⟨rfl, fun op h => by cases h; exact ⟨rfl, rfl⟩⟩

theorem notAcc : Statement (.notAcc) := by
  exact ⟨rfl, fun op h => by cases h; exact ⟨rfl, rfl⟩⟩

theorem xorAcc (r : Reg) : Statement (.xorAcc r) := by
  cases r <;> exact ⟨rfl, fun op h => by cases h; exact ⟨rfl, rfl⟩⟩

theorem nop9 : Statement (.nop9) := by
  exact ⟨rfl, fun op h => by cases h; exact ⟨rfl, rfl⟩⟩

theorem nopA : Statement (.nopA) := by
  exact ⟨rfl, fun op h => by cases h; exact ⟨rfl, rfl⟩⟩

theorem nopB : Statement (.nopB) := by
  exact ⟨rfl, fun op h => by cases h; exact ⟨rfl, rfl⟩⟩

theorem ret : Statement (.ret) := by
  exact ⟨rfl, fun op h => by cases h; exact ⟨rfl, rfl⟩⟩

theorem call (t : Byte) : Statement (.call t) := by
  exact ⟨rfl, fun op h => by cases h; exact ⟨rfl, rfl⟩⟩

theorem xchg (r : Reg) : Statement (.xchg r) := by
  cases r <;> exact ⟨rfl, fun op h => by cases h; exact ⟨rfl, rfl⟩⟩

theorem clc : Statement (.clc) := by
  exact ⟨rfl, fun op h => by cases h; exact ⟨rfl, rfl⟩⟩

theorem stc : Statement (.stc) := by
  exact ⟨rfl, fun op h => by cases h; exact ⟨rfl, rfl⟩⟩

theorem clz : Statement (.clz) := by
  exact ⟨rfl, fun op h => by cases h; exact ⟨rfl, rfl⟩⟩

theorem stz : Statement (.stz) := by
  exact ⟨rfl, fun op h => by cases h; exact ⟨rfl, rfl⟩⟩

theorem reset : Statement (.reset) := by
  exact ⟨rfl, fun op h => by cases h; exact ⟨rfl, rfl⟩⟩

end Sys2Proof.Laws.CanonicalForm
end

