-- ==== Sys2Proof/Laws/Variants.lean ====
section
/-! SUPPORT. The machine of `exec` and `step` is the machine of Variants.lean at the default parameters. -/

namespace Sys2Proof.Machine

theorem exec_eq_execWith (i : Instr) (s : State) : exec i s = execWith params i s := by
  cases i <;> rfl

theorem step_eq_stepWith (s : State) : step s = stepWith params s := by
  unfold step stepWith runDecoded
  cases s.fetchDecode params.nonCanon <;> simp [exec_eq_execWith]

/-- How a step ends under the parameters `p` is what `execWith p` makes of the decoded instruction. -/
theorem stepWith_instr (p : Params) (s : State) {i : Instr} {rest : List Byte}
    (h : s.fetchDecode p.nonCanon = .instr i rest) : stepWith p s = execWith p i s := by
  unfold stepWith; rw [h]; rfl

/-- A byte that is a one-byte no-op only under P_NONCANON = nop moves PC past itself. -/
theorem stepWith_noop (p : Params) (s : State) {op : Byte} {rest : List Byte}
    (h : s.fetchDecode p.nonCanon = .noop op rest) : stepWith p s = .next (s.advance 1#8) := by
  unfold stepWith; rw [h]; rfl

/-- Bytes that decode to nothing refuse the step. -/
theorem stepWith_refuse (p : Params) (s : State) {why : DecodeRefusal}
    (h : s.fetchDecode p.nonCanon = .refuse why) : stepWith p s = .refused (.undecodable why) := by
  unfold stepWith; rw [h]; rfl

@[simp] theorem params_storeAddr : params.storeAddr = .rawEnforced := rfl
@[simp] theorem params_jumpConsume : params.jumpConsume = .always := rfl
@[simp] theorem params_logicOp3 : params.logicOp3 = .xor := rfl
@[simp] theorem params_ret : params.ret = .nop := rfl
@[simp] theorem params_nonCanon : params.nonCanon = .ignore := rfl
@[simp] theorem params_resetClearsProgram : params.resetClearsProgram = false := rfl
@[simp] theorem params_faultPc : params.faultPc = .restored := rfl

end Sys2Proof.Machine
end

