-- ==== Sys2Proof/Tests/Slice0.lean ====
section
/-! SUPPORT. Tests. Expected values are those of spec/95_test_vectors.md (the vector's id stands in each comment) or are
worked out by hand from the rule named; then the decoding of words written out bit by bit, the refusals of the
well-formedness checks, and a witness for the hypotheses of each statement. -/

namespace Sys2Proof.Tests

open Sys2Proof.Machine Sys2Proof.Statements

/-- The reset state with PC and cells changed (cells in rising order). -/
def at_ (pc : Byte) (cells : Memory) : State := { State.reset with pc := pc, mem := cells }

/-- A field of the next state, if there is one. -/
def after {α : Type} (f : State → α) (o : Host.Outcome State Fault Refusal) : Option α :=
  match o with
  | .next t => some (f t)
  | .fault _ => none
  | .refused _ => none

/-- The fault, if there is one. -/
def faultOf (o : Host.Outcome State Fault Refusal) : Option Fault :=
  match o with
  | .next _ => none
  | .fault f => some f
  | .refused _ => none

/-- The registers as bytes. -/
def regs (s : State) : List Byte := [s.reg .r0, s.reg .r1, s.reg .r2, s.reg .r3]

/-! ### The opcode bytes, written out bit by bit from 30_encoding.md R72 -/

-- 0000 dd ss, d = 1, s = 2
theorem test_decode_movRR : decode [0b00000110#8] = .instr (.movRR .r1 .r2) [] := by decide
-- 0001 dd 00 i
theorem test_decode_movRI : decode [0b00011100#8, 0x05#8] = .instr (.movRI .r3 0x05#8) [] := by decide
-- 0001 dd 01 a
theorem test_decode_movRM : decode [0b00010101#8, 0x10#8] = .instr (.movRM .r1 0x10#8) [] := by decide
-- 0001 dd 10
theorem test_decode_movRAcc : decode [0b00011010#8] = .instr (.movRAcc .r2) [] := by decide
-- 0001 dd 11
theorem test_decode_movRPc : decode [0b00011111#8] = .instr (.movRPc .r3) [] := by decide
-- 0010 -- ss a, ignored bits set
theorem test_decode_movMR : decode [0b00101110#8, 0xFF#8] = .instr (.movMR 0xFF#8 .r2) [] := by decide
-- 0011 --- 0 i
theorem test_decode_movAccI : decode [0b00111110#8, 0x44#8] = .instr (.movAccI 0x44#8) [] := by decide
-- 0011 --- 1 a
theorem test_decode_movAccM : decode [0b00111111#8, 0x10#8] = .instr (.movAccM 0x10#8) [] := by decide
-- 0100 - 0 rr
theorem test_decode_incR : decode [0b01001011#8] = .instr (.incR .r3) [] := by decide
-- 0100 - 1 rr
theorem test_decode_decR : decode [0b01000110#8] = .instr (.decR .r2) [] := by decide
-- 0101 D W ff
theorem test_decode_jnc : decode [0b01010000#8, 0x40#8] = .instr (.jnc 0x40#8) [] := by decide
-- 0101 D W ff
theorem test_decode_jns : decode [0b01010001#8, 0x40#8] = .instr (.jns 0x40#8) [] := by decide
-- 0101 D W ff
theorem test_decode_jnz : decode [0b01010010#8, 0x40#8] = .instr (.jnz 0x40#8) [] := by decide
-- 0101 D W ff
theorem test_decode_jnp : decode [0b01010011#8, 0x40#8] = .instr (.jnp 0x40#8) [] := by decide
-- 0101 D W ff
theorem test_decode_jc : decode [0b01010100#8, 0x40#8] = .instr (.jc 0x40#8) [] := by decide
-- 0101 D W ff
theorem test_decode_js : decode [0b01010101#8, 0x40#8] = .instr (.js 0x40#8) [] := by decide
-- 0101 D W ff
theorem test_decode_jz : decode [0b01010110#8, 0x40#8] = .instr (.jz 0x40#8) [] := by decide
-- 0101 D W ff
theorem test_decode_jp : decode [0b01010111#8, 0x40#8] = .instr (.jp 0x40#8) [] := by decide
-- 0101 D W ff
theorem test_decode_jcD : decode [0b01011000#8, 0x40#8] = .instr (.jcD 0x40#8) [] := by decide
-- 0101 D W ff
theorem test_decode_jsD : decode [0b01011001#8, 0x40#8] = .instr (.jsD 0x40#8) [] := by decide
-- 0101 D W ff
theorem test_decode_jzD : decode [0b01011010#8, 0x40#8] = .instr (.jzD 0x40#8) [] := by decide
-- 0101 D W ff
theorem test_decode_jpD : decode [0b01011011#8, 0x40#8] = .instr (.jpD 0x40#8) [] := by decide
-- 0101 D W ff
theorem test_decode_jncD : decode [0b01011100#8, 0x40#8] = .instr (.jncD 0x40#8) [] := by decide
-- 0101 D W ff
theorem test_decode_jnsD : decode [0b01011101#8, 0x40#8] = .instr (.jnsD 0x40#8) [] := by decide
-- 0101 D W ff
theorem test_decode_jnzD : decode [0b01011110#8, 0x40#8] = .instr (.jnzD 0x40#8) [] := by decide
-- 0101 D W ff
theorem test_decode_jnpD : decode [0b01011111#8, 0x40#8] = .instr (.jnpD 0x40#8) [] := by decide
-- 0110 --- 0
theorem test_decode_decAcc : decode [0b01101110#8] = .instr (.decAcc) [] := by decide
-- 0110 --- 1
theorem test_decode_incAcc : decode [0b01100001#8] = .instr (.incAcc) [] := by decide
-- 0111 ----
theorem test_decode_clrAcc : decode [0b01111010#8] = .instr (.clrAcc) [] := by decide
-- 1000 00 ss
theorem test_decode_andAcc : decode [0b10000001#8] = .instr (.andAcc .r1) [] := by decide
-- 1000 01 ss
theorem test_decode_orAcc : decode [0b10000111#8] = .instr (.orAcc .r3) [] := by decide
-- 1000 10 --
theorem test_decode_notAcc : decode [0b10001001#8] = .instr (.notAcc) [] := by decide
-- 1000 11 ss
theorem test_decode_xorAcc : decode [0b10001110#8] = .instr (.xorAcc .r2) [] := by decide
-- 1001 ----
theorem test_decode_nop9 : decode [0b10010011#8] = .instr (.nop9) [] := by decide
-- 1010 ----
theorem test_decode_nopA : decode [0b10100101#8] = .instr (.nopA) [] := by decide
-- 1011 ----
theorem test_decode_nopB : decode [0b10111111#8] = .instr (.nopB) [] := by decide
-- 1100 --- 0
theorem test_decode_ret : decode [0b11001110#8] = .instr (.ret) [] := by decide
-- 1100 --- 1 t
theorem test_decode_call : decode [0b11000011#8, 0x20#8] = .instr (.call 0x20#8) [] := by decide
-- 1101 -- rr
theorem test_decode_xchg : decode [0b11011111#8] = .instr (.xchg .r3) [] := by decide
-- 1110 -- 0 0
theorem test_decode_clc : decode [0b11101000#8] = .instr (.clc) [] := by decide
-- 1110 -- 0 1
theorem test_decode_stc : decode [0b11100101#8] = .instr (.stc) [] := by decide
-- 1110 -- 1 0
theorem test_decode_clz : decode [0b11100010#8] = .instr (.clz) [] := by decide
-- 1110 -- 1 1
theorem test_decode_stz : decode [0b11101111#8] = .instr (.stz) [] := by decide
-- 1111 ----
theorem test_decode_reset : decode [0b11110000#8] = .instr (.reset) [] := by decide

-- R75: the operand byte of a two-byte instruction may not be missing, and a one-byte instruction leaves the rest
theorem test_decode_missing_operand : decode [0x10#8] = .refuse (.noOperand 0x10#8) := by decide
theorem test_decode_empty : decode [] = .refuse .noOpcode := by decide
theorem test_decode_leaves_rest : decode [0xA0#8, 0x61#8] = .instr .nopA [0x61#8] := by decide
-- R76 under the other values of P_NONCANON: 0x48 is not canonical, 0x40 is
theorem test_decode_noncanonical_nop : decodeWith .nop [0x48#8] = .noop 0x48#8 [] := by decide
theorem test_decode_noncanonical_refuse :
    ∀ rule, decodeWith (.refuse rule) [0x48#8] = .refuse (.nonCanonical 0x48#8) := by intro rule; cases rule <;> decide
theorem test_decode_canonical_refuse : ∀ rule, decodeWith (.refuse rule) [0x40#8] = .instr (.incR .r0) [] := by
  intro rule; cases rule <;> decide
-- R84 accepts every byte of family 0x8 under refuse, R76 only the canonical 0x88 of NOT
theorem test_decode_family8_r84 : decodeWith (.refuse .r84) [0x8B#8] = .instr .notAcc [] := by decide
theorem test_decode_family8_r76 : decodeWith (.refuse .r76) [0x8B#8] = .refuse (.nonCanonical 0x8B#8) ∧
    decodeWith (.refuse .r76) [0x88#8] = .instr .notAcc [] := by decide
-- the host's numbering: the opcode byte is bits 7..0, the operand byte bits 15..8, bits from nbits up are 0
theorem test_decodeTableWord : decodeTableWord 16 0x051C = some (.movRI .r3 0x05#8) := by decide
theorem test_decodeTableWord_short : decodeTableWord 8 0x051C = some (.movRI .r3 0x00#8) := by decide
-- it runs as the first instruction after reset
theorem test_withFetchWord : after regs (step (State.reset.withFetchWord 16 0x051C)) = some [0, 0, 0, 5] := by decide

/-! ### Well-formedness: each check refuses an ill-formed term -/

-- R46, R173: 128 bytes are accepted, 129 are not
theorem test_image_wf : imageWf (List.replicate 128 0x61#8) = true := by simp [imageWf, Config.imageMax]
theorem test_image_ill_formed : imageWf (List.replicate 129 0x61#8) = false := by simp [imageWf, Config.imageMax]
-- the canonical form of memory: rising addresses, below 256, no listed 0x00
theorem test_mem_wf : Memory.wf [(0x00, 0x30#8), (0x90, 0x2A#8), (0xFF, 0x01#8)] = true := by decide
theorem test_mem_ill_order : Memory.wf [(0x90, 0x2A#8), (0x00, 0x30#8)] = false := by decide
theorem test_mem_ill_repeat : Memory.wf [(0x90, 0x2A#8), (0x90, 0x30#8)] = false := by decide
theorem test_mem_ill_address : Memory.wf [(0x100, 0x2A#8)] = false := by decide
theorem test_mem_ill_zero : Memory.wf [(0x90, 0x00#8)] = false := by decide

/-! ### One step (95_test_vectors.md part 2) -/

-- M1
theorem test_movRR_M1 : after (fun t => (regs t, t.pc)) (step { at_ 0x10#8 [(0x10, 0x6#8)] with x := ⟨0, 0, 126, 0⟩ }) = some ([0, 0x7E, 0x7E, 0], 0x11) := by decide
-- M5: one byte at FF wraps
theorem test_movRR_M5 : after (fun t => (regs t, t.pc)) (step { at_ 0xff#8 [(0xff, 0x1#8)] with x := ⟨0, 85, 0, 0⟩ }) = some ([0x55, 0x55, 0, 0], 0) := by decide
-- M2: empty memory is MOV r0,r0
theorem test_movRR_M2 : after id (step State.reset) = some { State.reset with pc := 1 } := by decide
-- M6
theorem test_movRI_M6 : after (fun t => (regs t, t.pc)) (step (at_ 0x0#8 [(0x0, 0x1c#8), (0x1, 0x5#8)])) = some ([0, 0, 0, 5], 2) := by decide
-- M17: operand from address 00
theorem test_movRI_M17 : after (fun t => (regs t, t.pc)) (step (at_ 0xff#8 [(0x0, 0x77#8), (0xff, 0x10#8)])) = some ([0x77, 0, 0, 0], 1) := by decide
-- M12
theorem test_movRM_M12 : after (fun t => (regs t, t.pc)) (step (at_ 0x0#8 [(0x0, 0x1d#8), (0x1, 0x7f#8), (0xff, 0x44#8)])) = some ([0, 0, 0, 0x44], 2) := by decide
-- M14: the program partition is never read as data
theorem test_movRM_M14 : after (fun t => (regs t, t.pc)) (step (at_ 0x0#8 [(0x0, 0x11#8), (0x80, 0x33#8)])) = some ([0x33, 0, 0, 0], 2) := by decide
-- M15
theorem test_movRAcc_M15 : after (fun t => (regs t, t.acc, t.pc)) (step { at_ 0xc#8 [(0xc, 0x1a#8)] with acc := 1 }) = some ([0, 0, 1, 0], 1, 0x0D) := by decide
-- M16b
theorem test_movRPc_M16b : after (fun t => (regs t, t.pc)) (step (at_ 0xd#8 [(0xd, 0x1f#8)])) = some ([0, 0, 0, 0x0E], 0x0E) := by decide
-- M16: the wrapped PC
theorem test_movRPc_M16 : after (fun t => (regs t, t.pc)) (step { at_ 0xff#8 [(0xff, 0x13#8)] with x := ⟨153, 0, 0, 0⟩ }) = some ([0, 0, 0, 0], 0) := by decide
-- ST2: lowest writable address
theorem test_movMR_ST2 : after (fun t => (t.mem, t.pc)) (step { at_ 0x0#8 [(0x0, 0x23#8), (0x1, 0x80#8)] with x := ⟨0, 0, 0, 255⟩ }) = some ([(0, 0x23), (1, 0x80), (0x80, 0xFF)], 2) := by decide
-- ST3: highest protected address
theorem test_movMR_ST3 : faultOf (step { at_ 0x0#8 [(0x0, 0x22#8), (0x1, 0x7f#8)] with x := ⟨0, 0, 17, 0⟩ }) = some (.protectedRegion 0x7F) := by decide
-- a stored 00 is not listed: the memory stays canonical
theorem test_movMR_zero : after (fun t => t.mem) (step (at_ 0x0#8 [(0x0, 0x20#8), (0x1, 0x90#8), (0x90, 0x2a#8)])) = some [(0, 0x20), (1, 0x90)] := by decide
-- A31: ZF is not set
theorem test_movAccI_A31 : after (fun t => (t.acc, t.flags.zf, t.pc)) (step { at_ 0x0#8 [(0x0, 0x30#8)] with acc := 5 }) = some (0, false, 2) := by decide
-- A33
theorem test_movAccM_A33 : after (fun t => (t.acc, t.pc)) (step (at_ 0x0#8 [(0x0, 0x3f#8), (0x1, 0x10#8), (0x90, 0x2a#8)])) = some (0x2A, 2) := by decide
-- A2: wraps, no flag
theorem test_incR_A2 : after (fun t => (regs t, t.flags)) (step { at_ 0x0#8 [(0x0, 0x43#8)] with x := ⟨0, 0, 0, 255⟩ }) = some ([0, 0, 0, 0], ⟨false, false, false, false⟩) := by decide
-- A5
theorem test_incR_A5 : after (fun t => (regs t, t.pc)) (step { at_ 0x0#8 [(0x0, 0x4b#8)] with x := ⟨0, 0, 0, 16⟩ }) = some ([0, 0, 0, 0x11], 1) := by decide
-- A3: wraps, no flag
theorem test_decR_A3 : after (fun t => (regs t, t.flags)) (step (at_ 0x0#8 [(0x0, 0x44#8)])) = some ([0xFF, 0, 0, 0], ⟨false, false, false, false⟩) := by decide
-- A4
theorem test_decR_A4 : after (fun t => (regs t, t.pc)) (step { at_ 0x0#8 [(0x0, 0x47#8)] with x := ⟨0, 0, 0, 128⟩ }) = some ([0, 0, 0, 0x7F], 1) := by decide
-- the table of family 0x5, byte 50, F = 0
theorem test_jnc_0 : after (fun t => (t.pc, t.flags)) (step { at_ 0x10#8 [(0x10, 0x50#8), (0x11, 0x40#8)] with flags := ⟨false, false, false, false⟩ }) = some (0x40, ⟨false, false, false, false⟩) := by decide
-- the table of family 0x5, byte 50, F = 1
theorem test_jnc_1 : after (fun t => (t.pc, t.flags)) (step { at_ 0x10#8 [(0x10, 0x50#8), (0x11, 0x40#8)] with flags := ⟨true, false, false, false⟩ }) = some (0x12, ⟨true, false, false, false⟩) := by decide
-- the table of family 0x5, byte 51, F = 0
theorem test_jns_0 : after (fun t => (t.pc, t.flags)) (step { at_ 0x10#8 [(0x10, 0x51#8), (0x11, 0x40#8)] with flags := ⟨false, false, false, false⟩ }) = some (0x40, ⟨false, false, false, false⟩) := by decide
-- the table of family 0x5, byte 51, F = 1
theorem test_jns_1 : after (fun t => (t.pc, t.flags)) (step { at_ 0x10#8 [(0x10, 0x51#8), (0x11, 0x40#8)] with flags := ⟨false, false, true, false⟩ }) = some (0x12, ⟨false, false, true, false⟩) := by decide
-- the table of family 0x5, byte 52, F = 0
theorem test_jnz_0 : after (fun t => (t.pc, t.flags)) (step { at_ 0x10#8 [(0x10, 0x52#8), (0x11, 0x40#8)] with flags := ⟨false, false, false, false⟩ }) = some (0x40, ⟨false, false, false, false⟩) := by decide
-- the table of family 0x5, byte 52, F = 1
theorem test_jnz_1 : after (fun t => (t.pc, t.flags)) (step { at_ 0x10#8 [(0x10, 0x52#8), (0x11, 0x40#8)] with flags := ⟨false, true, false, false⟩ }) = some (0x12, ⟨false, true, false, false⟩) := by decide
-- the table of family 0x5, byte 53, F = 0
theorem test_jnp_0 : after (fun t => (t.pc, t.flags)) (step { at_ 0x10#8 [(0x10, 0x53#8), (0x11, 0x40#8)] with flags := ⟨false, false, false, false⟩ }) = some (0x40, ⟨false, false, false, false⟩) := by decide
-- the table of family 0x5, byte 53, F = 1
theorem test_jnp_1 : after (fun t => (t.pc, t.flags)) (step { at_ 0x10#8 [(0x10, 0x53#8), (0x11, 0x40#8)] with flags := ⟨false, false, false, true⟩ }) = some (0x12, ⟨false, false, false, true⟩) := by decide
-- the table of family 0x5, byte 54, F = 0
theorem test_jc_0 : after (fun t => (t.pc, t.flags)) (step { at_ 0x10#8 [(0x10, 0x54#8), (0x11, 0x40#8)] with flags := ⟨false, false, false, false⟩ }) = some (0x12, ⟨false, false, false, false⟩) := by decide
-- the table of family 0x5, byte 54, F = 1
theorem test_jc_1 : after (fun t => (t.pc, t.flags)) (step { at_ 0x10#8 [(0x10, 0x54#8), (0x11, 0x40#8)] with flags := ⟨true, false, false, false⟩ }) = some (0x40, ⟨true, false, false, false⟩) := by decide
-- the table of family 0x5, byte 55, F = 0
theorem test_js_0 : after (fun t => (t.pc, t.flags)) (step { at_ 0x10#8 [(0x10, 0x55#8), (0x11, 0x40#8)] with flags := ⟨false, false, false, false⟩ }) = some (0x12, ⟨false, false, false, false⟩) := by decide
-- the table of family 0x5, byte 55, F = 1
theorem test_js_1 : after (fun t => (t.pc, t.flags)) (step { at_ 0x10#8 [(0x10, 0x55#8), (0x11, 0x40#8)] with flags := ⟨false, false, true, false⟩ }) = some (0x40, ⟨false, false, true, false⟩) := by decide
-- the table of family 0x5, byte 56, F = 0
theorem test_jz_0 : after (fun t => (t.pc, t.flags)) (step { at_ 0x10#8 [(0x10, 0x56#8), (0x11, 0x40#8)] with flags := ⟨false, false, false, false⟩ }) = some (0x12, ⟨false, false, false, false⟩) := by decide
-- the table of family 0x5, byte 56, F = 1
theorem test_jz_1 : after (fun t => (t.pc, t.flags)) (step { at_ 0x10#8 [(0x10, 0x56#8), (0x11, 0x40#8)] with flags := ⟨false, true, false, false⟩ }) = some (0x40, ⟨false, true, false, false⟩) := by decide
-- the table of family 0x5, byte 57, F = 0
theorem test_jp_0 : after (fun t => (t.pc, t.flags)) (step { at_ 0x10#8 [(0x10, 0x57#8), (0x11, 0x40#8)] with flags := ⟨false, false, false, false⟩ }) = some (0x12, ⟨false, false, false, false⟩) := by decide
-- the table of family 0x5, byte 57, F = 1
theorem test_jp_1 : after (fun t => (t.pc, t.flags)) (step { at_ 0x10#8 [(0x10, 0x57#8), (0x11, 0x40#8)] with flags := ⟨false, false, false, true⟩ }) = some (0x40, ⟨false, false, false, true⟩) := by decide
-- the table of family 0x5, byte 58, F = 0
theorem test_jcD_0 : after (fun t => (t.pc, t.flags)) (step { at_ 0x10#8 [(0x10, 0x58#8), (0x11, 0x40#8)] with flags := ⟨false, false, false, false⟩ }) = some (0x12, ⟨false, false, false, false⟩) := by decide
-- the table of family 0x5, byte 58, F = 1
theorem test_jcD_1 : after (fun t => (t.pc, t.flags)) (step { at_ 0x10#8 [(0x10, 0x58#8), (0x11, 0x40#8)] with flags := ⟨true, false, false, false⟩ }) = some (0x40, ⟨true, false, false, false⟩) := by decide
-- the table of family 0x5, byte 59, F = 0
theorem test_jsD_0 : after (fun t => (t.pc, t.flags)) (step { at_ 0x10#8 [(0x10, 0x59#8), (0x11, 0x40#8)] with flags := ⟨false, false, false, false⟩ }) = some (0x12, ⟨false, false, false, false⟩) := by decide
-- the table of family 0x5, byte 59, F = 1
theorem test_jsD_1 : after (fun t => (t.pc, t.flags)) (step { at_ 0x10#8 [(0x10, 0x59#8), (0x11, 0x40#8)] with flags := ⟨false, false, true, false⟩ }) = some (0x40, ⟨false, false, true, false⟩) := by decide
-- the table of family 0x5, byte 5A, F = 0
theorem test_jzD_0 : after (fun t => (t.pc, t.flags)) (step { at_ 0x10#8 [(0x10, 0x5a#8), (0x11, 0x40#8)] with flags := ⟨false, false, false, false⟩ }) = some (0x12, ⟨false, false, false, false⟩) := by decide
-- the table of family 0x5, byte 5A, F = 1
theorem test_jzD_1 : after (fun t => (t.pc, t.flags)) (step { at_ 0x10#8 [(0x10, 0x5a#8), (0x11, 0x40#8)] with flags := ⟨false, true, false, false⟩ }) = some (0x40, ⟨false, true, false, false⟩) := by decide
-- the table of family 0x5, byte 5B, F = 0
theorem test_jpD_0 : after (fun t => (t.pc, t.flags)) (step { at_ 0x10#8 [(0x10, 0x5b#8), (0x11, 0x40#8)] with flags := ⟨false, false, false, false⟩ }) = some (0x12, ⟨false, false, false, false⟩) := by decide
-- the table of family 0x5, byte 5B, F = 1
theorem test_jpD_1 : after (fun t => (t.pc, t.flags)) (step { at_ 0x10#8 [(0x10, 0x5b#8), (0x11, 0x40#8)] with flags := ⟨false, false, false, true⟩ }) = some (0x40, ⟨false, false, false, true⟩) := by decide
-- the table of family 0x5, byte 5C, F = 0
theorem test_jncD_0 : after (fun t => (t.pc, t.flags)) (step { at_ 0x10#8 [(0x10, 0x5c#8), (0x11, 0x40#8)] with flags := ⟨false, false, false, false⟩ }) = some (0x40, ⟨false, false, false, false⟩) := by decide
-- the table of family 0x5, byte 5C, F = 1
theorem test_jncD_1 : after (fun t => (t.pc, t.flags)) (step { at_ 0x10#8 [(0x10, 0x5c#8), (0x11, 0x40#8)] with flags := ⟨true, false, false, false⟩ }) = some (0x12, ⟨true, false, false, false⟩) := by decide
-- the table of family 0x5, byte 5D, F = 0
theorem test_jnsD_0 : after (fun t => (t.pc, t.flags)) (step { at_ 0x10#8 [(0x10, 0x5d#8), (0x11, 0x40#8)] with flags := ⟨false, false, false, false⟩ }) = some (0x40, ⟨false, false, false, false⟩) := by decide
-- the table of family 0x5, byte 5D, F = 1
theorem test_jnsD_1 : after (fun t => (t.pc, t.flags)) (step { at_ 0x10#8 [(0x10, 0x5d#8), (0x11, 0x40#8)] with flags := ⟨false, false, true, false⟩ }) = some (0x12, ⟨false, false, true, false⟩) := by decide
-- the table of family 0x5, byte 5E, F = 0
theorem test_jnzD_0 : after (fun t => (t.pc, t.flags)) (step { at_ 0x10#8 [(0x10, 0x5e#8), (0x11, 0x40#8)] with flags := ⟨false, false, false, false⟩ }) = some (0x40, ⟨false, false, false, false⟩) := by decide
-- the table of family 0x5, byte 5E, F = 1
theorem test_jnzD_1 : after (fun t => (t.pc, t.flags)) (step { at_ 0x10#8 [(0x10, 0x5e#8), (0x11, 0x40#8)] with flags := ⟨false, true, false, false⟩ }) = some (0x12, ⟨false, true, false, false⟩) := by decide
-- the table of family 0x5, byte 5F, F = 0
theorem test_jnpD_0 : after (fun t => (t.pc, t.flags)) (step { at_ 0x10#8 [(0x10, 0x5f#8), (0x11, 0x40#8)] with flags := ⟨false, false, false, false⟩ }) = some (0x40, ⟨false, false, false, false⟩) := by decide
-- the table of family 0x5, byte 5F, F = 1
theorem test_jnpD_1 : after (fun t => (t.pc, t.flags)) (step { at_ 0x10#8 [(0x10, 0x5f#8), (0x11, 0x40#8)] with flags := ⟨false, false, false, true⟩ }) = some (0x12, ⟨false, false, false, true⟩) := by decide
-- A8b
theorem test_incAcc_A8b : after (fun t => (t.acc, t.pc)) (step { at_ 0x0#8 [(0x0, 0x6f#8)] with acc := 0x7F }) = some (0x80, 1) := by decide
-- A7: wraps
theorem test_incAcc_A7 : after (fun t => (t.acc, t.flags)) (step { at_ 0x0#8 [(0x0, 0x61#8)] with acc := 0xFF }) = some (0, ⟨false, false, false, false⟩) := by decide
-- A8: wraps
theorem test_decAcc_A8 : after (fun t => (t.acc, t.pc)) (step (at_ 0x0#8 [(0x0, 0x60#8)])) = some (0xFF, 1) := by decide
-- A10
theorem test_clrAcc_A10 : after (fun t => (t.acc, t.flags.zf, t.pc)) (step { at_ 0x0#8 [(0x0, 0x7f#8)] with acc := 0xAB }) = some (0, false, 1) := by decide
-- L1
theorem test_andAcc_L1 : after (fun t => (t.acc, regs t, t.pc)) (step { at_ 0x0#8 [(0x0, 0x81#8)] with acc := 0xCA, x := ⟨0, 172, 0, 0⟩ }) = some (0x88, [0, 0xAC, 0, 0], 1) := by decide
-- L2
theorem test_orAcc_L2 : after (fun t => (t.acc, regs t, t.pc)) (step { at_ 0x0#8 [(0x0, 0x85#8)] with acc := 0xCA, x := ⟨0, 172, 0, 0⟩ }) = some (0xee, [0, 0xAC, 0, 0], 1) := by decide
-- L4
theorem test_notAcc_L4 : after (fun t => (t.acc, regs t, t.pc)) (step { at_ 0x0#8 [(0x0, 0x89#8)] with acc := 0xCA, x := ⟨0, 172, 0, 0⟩ }) = some (0x35, [0, 0xAC, 0, 0], 1) := by decide
-- L5
theorem test_xorAcc_L5 : after (fun t => (t.acc, regs t, t.pc)) (step { at_ 0x0#8 [(0x0, 0x8d#8)] with acc := 0xCA, x := ⟨0, 172, 0, 0⟩ }) = some (0x66, [0, 0xAC, 0, 0], 1) := by decide
-- L8: the sign bit sets no flag
theorem test_orAcc_L8 : after (fun t => (t.acc, t.flags.sf)) (step { at_ 0x0#8 [(0x0, 0x87#8)] with acc := 0x0F, x := ⟨0, 0, 0, 240⟩ }) = some (0xFF, false) := by decide
-- N2
theorem test_nop9_N2 : after (fun t => (t.acc, regs t, t.pc)) (step { at_ 0x0#8 [(0x0, 0x9f#8)] with acc := 0x12, x := ⟨52, 0, 0, 0⟩ }) = some (0x12, [0x34, 0, 0, 0], 1) := by decide
-- N3
theorem test_nopA_N3 : after (fun t => (t.acc, regs t, t.pc)) (step { at_ 0x0#8 [(0x0, 0xa5#8)] with acc := 0x12, x := ⟨52, 0, 0, 0⟩ }) = some (0x12, [0x34, 0, 0, 0], 1) := by decide
-- N4
theorem test_nopB_N4 : after (fun t => (t.acc, regs t, t.pc)) (step { at_ 0x0#8 [(0x0, 0xbf#8)] with acc := 0x12, x := ⟨52, 0, 0, 0⟩ }) = some (0x12, [0x34, 0, 0, 0], 1) := by decide
-- C2: the return address wraps
theorem test_call_C2 : after (fun t => (t.ct, t.pc)) (step (at_ 0xfe#8 [(0xfe, 0xc1#8), (0xff, 0x40#8)])) = some (0, 0x40) := by decide
-- C3: operand from address 00
theorem test_call_C3 : after (fun t => (t.ct, t.pc)) (step (at_ 0xff#8 [(0x0, 0x40#8), (0xff, 0xc1#8)])) = some (1, 0x40) := by decide
-- C5: RET is a no-op
theorem test_ret_C5 : after (fun t => (t.ct, t.pc)) (step { at_ 0x21#8 [(0x21, 0xc0#8)] with ct := 0x0B }) = some (0x0B, 0x22) := by decide
-- X1
theorem test_xchg_X1 : after (fun t => (t.acc, regs t, t.pc)) (step { at_ 0x2#8 [(0x2, 0xd0#8)] with acc := 0x2A }) = some (0, [0x2A, 0, 0, 0], 3) := by decide
-- X3
theorem test_xchg_X3 : after (fun t => (t.acc, regs t)) (step { at_ 0x0#8 [(0x0, 0xdf#8)] with acc := 0x12, x := ⟨0, 0, 0, 52⟩ }) = some (0x34, [0, 0, 0, 0x12]) := by decide
-- FL1: CLC leaves ZF
theorem test_clc_FL1 : after (fun t => (t.flags, t.pc)) (step { at_ 0x0#8 [(0x0, 0xe0#8)] with flags := ⟨true, true, false, false⟩ }) = some (⟨false, true, false, false⟩, 1) := by decide
-- FL5: E5 is not "set SF"
theorem test_stc_FL5 : after (fun t => (t.flags, t.pc)) (step (at_ 0x0#8 [(0x0, 0xe5#8)])) = some (⟨true, false, false, false⟩, 1) := by decide
-- FL3: CLZ leaves CF
theorem test_clz_FL3 : after (fun t => (t.flags, t.pc)) (step { at_ 0x0#8 [(0x0, 0xe2#8)] with flags := ⟨true, true, false, false⟩ }) = some (⟨true, false, false, false⟩, 1) := by decide
-- FL6: EF is not "set PF"
theorem test_stz_FL6 : after (fun t => (t.flags, t.pc)) (step (at_ 0x0#8 [(0x0, 0xef#8)])) = some (⟨false, true, false, false⟩, 1) := by decide
-- F1
theorem test_reset_F1 : after id (step { at_ 0x2#8 [(0x0, 0x30#8), (0x1, 0x2a#8), (0x2, 0xf0#8), (0x90, 0x77#8), (0xff, 0x11#8)] with x := ⟨1, 2, 3, 4⟩, acc := 0x2A, ct := 9, flags := ⟨true, true, true, true⟩ }) = some (at_ 0 [(0, 0x30), (1, 0x2A), (2, 0xF0)]) := by decide
-- F2: it erases itself
theorem test_reset_F2 : after id (step { at_ 0x85#8 [(0x85, 0xff#8), (0x90, 0x77#8)] with x := ⟨1, 0, 0, 0⟩ }) = some State.reset := by decide

/-! ### The other values of the parameters (the vectors marked with them in 95_test_vectors.md) -/

-- ST3m
theorem test_masked_ST3m : after (fun t => (t.readByte 0xFF, t.pc)) (stepWith { params with storeAddr := .masked } { at_ 0x0#8 [(0x0, 0x22#8), (0x1, 0x7f#8)] with x := ⟨0, 0, 17, 0⟩ }) = some (0x11, 2) := by decide
-- J2t
theorem test_taken_only_J2t : after (fun t => t.pc) (stepWith { params with jumpConsume := .takenOnly } { at_ 0x0#8 [(0x0, 0x50#8), (0x1, 0x40#8)] with flags := ⟨true, false, false, false⟩ }) = some 1 := by decide
-- L5n
theorem test_xor_nop_L5n : after (fun t => (t.acc, t.pc)) (stepWith { params with logicOp3 := .nop } { at_ 0x0#8 [(0x0, 0x8d#8)] with acc := 0xCA, x := ⟨0, 172, 0, 0⟩ }) = some (0xCA, 1) := by decide
-- C5r
theorem test_restore_C5r : after (fun t => (t.ct, t.pc)) (stepWith { params with ret := .restore } { at_ 0x21#8 [(0x21, 0xc0#8)] with ct := 0x0B }) = some (0x0B, 0x0B) := by decide
-- R76 with P_NONCANON = nop: 4B does nothing
theorem test_noncanon_nop : after (fun t => (regs t, t.pc)) (stepWith { params with nonCanon := .nop } { at_ 0x0#8 [(0x0, 0x4b#8)] with x := ⟨0, 0, 0, 16⟩ }) = some ([0, 0, 0, 0x10], 1) := by decide
-- F1f
theorem test_reset_full_F1f : after id (stepWith { params with resetClearsProgram := true } { at_ 0x2#8 [(0x0, 0x30#8), (0x1, 0x2a#8), (0x2, 0xf0#8), (0x90, 0x77#8)] with acc := 0x2A }) = some State.reset := by decide
-- ST3a
theorem test_fault_advanced_ST3a : (hostStep { params with faultPc := .advanced } { at_ 0x0#8 [(0x0, 0x22#8), (0x1, 0x7f#8)] with x := ⟨0, 0, 17, 0⟩ }).1.pc = 2 := by decide
-- P4
theorem test_fault_restored_P4 : hostStep params (at_ 0 [(0, 0x22), (1, 0x7F)]) = (at_ 0 [(0, 0x22), (1, 0x7F)], .fault (.protectedRegion 0x7F)) := by decide

/-! ### The host between steps (95_test_vectors.md P5) -/

-- P5: load
theorem test_host_load : hostApply params (.load [0x40, 0x51, 0x00]) none = (some (at_ 0 [(0, 0x40), (1, 0x51)]), .done) := by decide
-- P5: forceWrite patches the program
theorem test_host_force_write : hostApply params (.forceWrite 0x00 0x44) (some (at_ 0 [(0, 0x40), (1, 0x51)])) = (some (at_ 0 [(0, 0x44), (1, 0x51)]), .done) := by decide
-- P5: write(0x00, 0x40) is refused
theorem test_host_write_refused : hostApply params (.memWrite 0x00 0x40) (some (at_ 0 [(0, 0x44), (1, 0x51)])) = (some (at_ 0 [(0, 0x44), (1, 0x51)]), .ended (.fault (.protectedRegion 0x00))) := by decide
-- P5: reset() keeps the patched program
theorem test_host_reset : hostApply params .reset (some { at_ 1 [(0, 0x44), (1, 0x51), (0x90, 0x77)] with x := ⟨1, 0, 0, 0⟩ }) = (some (at_ 0 [(0, 0x44), (1, 0x51)]), .done) := by decide
-- R31, U12
theorem test_host_idle : hostApply params .step none = (none, .idle) := by decide
-- R85
theorem test_ignored_event : ignoredEvent (at_ 0x20 [(0x20, 0x93)]) = some (0x93, 0x20) := by decide
-- R85: an ordinary instruction is not reported
theorem test_ignored_event_none : ignoredEvent (at_ 0 [(0, 0x61)]) = none := by decide

/-! ### Witnesses: the hypotheses of each statement can be met together -/

/-- `MOV [a],r2` with operand `a` at PC = 0. -/
def storing (a : Byte) : State := { at_ 0 [(0, 0x22)] with x := ⟨0, 0, 0x11, 0⟩ }.forceWrite 1 a

theorem witness_EveryOpcodeByteIsAnInstruction_fault : step (storing 0x7F) = .fault (.protectedRegion 0x7F) := rfl
theorem witness_EveryOpcodeByteIsAnInstruction_empty : State.reset.readByte State.reset.pc = 0x00#8 := rfl
theorem witness_OpcodeByteDecidesLength_two :
    ∀ op ∈ [0x10#8, 0x1D, 0x20, 0x3F, 0x50, 0x5F, 0xC1, 0xCF], BeginsTwoBytes op := by decide
theorem witness_OpcodeByteDecidesLength_one :
    ∀ op ∈ [0x0F#8, 0x12, 0x1E, 0x1F, 0x40, 0x4F, 0x60, 0xBF, 0xC0, 0xCE, 0xD0, 0xFF], ¬ BeginsTwoBytes op := by decide
theorem witness_StepRunsDecodedInstruction :
    decode State.reset.fetchBytes = .instr (.movRR .r0 .r0) [0x00] := by decide
theorem witness_StepAdvancesPastItsBytes_two : ∃ t, step (storing 0x80) = .next t ∧
    ¬ SetsPcUnder (storing 0x80).flags ((storing 0x80).readByte 0) ∧ BeginsTwoBytes ((storing 0x80).readByte 0) :=
  ⟨_, rfl, by decide⟩
theorem witness_StepAdvancesPastItsBytes_not_taken : ∃ t, step (at_ 0 [(0, 0x54), (1, 0x40)]) = .next t ∧
    ¬ SetsPcUnder (at_ 0 [(0, 0x54), (1, 0x40)]).flags ((at_ 0 [(0, 0x54), (1, 0x40)]).readByte 0) ∧
    BeginsTwoBytes ((at_ 0 [(0, 0x54), (1, 0x40)]).readByte 0) := ⟨_, rfl, by decide⟩
-- R142: bytes 50 to 53 and 5C to 5F are taken on a flag of 0, 54 to 5B on a flag of 1
theorem test_jump_taken_by : ∀ n : Fin 16,
    JumpTakenBy (BitVec.ofNat 8 (0x50 + n.val)) ⟨false, false, false, false⟩ = decide (n.val < 4 ∨ 12 ≤ n.val) ∧
    JumpTakenBy (BitVec.ofNat 8 (0x50 + n.val)) ⟨true, true, true, true⟩ = decide (4 ≤ n.val ∧ n.val < 12) := by decide
theorem witness_StepAdvancesPastItsBytes_one : ∃ t, step State.reset = .next t ∧
    ¬ SetsPcUnder State.reset.flags (State.reset.readByte 0) ∧ ¬ BeginsTwoBytes (State.reset.readByte 0) :=
  ⟨_, rfl, by decide⟩
theorem witness_PcWrapsAtTopOfMemory_one : ∃ t, step (at_ 0xFF [(0xFF, 0x61)]) = .next t ∧
    (at_ 0xFF [(0xFF, 0x61)]).pc = 0xFF ∧ ¬ SetsPc ((at_ 0xFF [(0xFF, 0x61)]).readByte 0xFF) ∧
    ¬ BeginsTwoBytes ((at_ 0xFF [(0xFF, 0x61)]).readByte 0xFF) := ⟨_, rfl, by decide⟩
theorem witness_PcWrapsAtTopOfMemory_two : ∃ t, step (at_ 0xFF [(0xFF, 0x10)]) = .next t ∧
    (at_ 0xFF [(0xFF, 0x10)]).pc = 0xFF ∧ ¬ SetsPc ((at_ 0xFF [(0xFF, 0x10)]).readByte 0xFF) ∧
    BeginsTwoBytes ((at_ 0xFF [(0xFF, 0x10)]).readByte 0xFF) := ⟨_, rfl, by decide⟩
theorem witness_StoreWritesDataPartition : ∀ a ∈ [0x80#8, 0xFF], 0x80#8 ≤ a := by decide
theorem witness_StoreBelowDataPartitionFaults_low : ∀ a ∈ [0x00#8, 0x7F], a < 0x80#8 := by decide
theorem witness_StoreBelowDataPartitionFaults_high : ∀ a ∈ [0x80#8, 0xFF], 0x80#8 ≤ a := by decide
theorem witness_SignParityJumpsAreFixed : State.reset.SignParityClear := by decide
theorem witness_GeneralRegisterWriters : ∃ t, exec (.incR .r3) State.reset = .next t ∧ t.reg .r3 ≠ State.reset.reg .r3 :=
  ⟨_, rfl, by decide⟩
theorem witness_AccWriters : ∃ t, exec .decAcc State.reset = .next t ∧ t.acc ≠ State.reset.acc := ⟨_, rfl, by decide⟩
theorem witness_CallTargetWriters : ∃ t, exec (.call 0) State.reset = .next t ∧ t.ct ≠ State.reset.ct := ⟨_, rfl, by decide⟩
theorem witness_FlagWriters_cf : ∃ t, exec .stc State.reset = .next t ∧ t.flags.cf ≠ State.reset.flags.cf :=
  ⟨_, rfl, by decide⟩
theorem witness_FlagWriters_zf : ∃ t, exec .stz State.reset = .next t ∧ t.flags.zf ≠ State.reset.flags.zf :=
  ⟨_, rfl, by decide⟩
theorem witness_FlagWriters_sf_pf : ∃ t, exec .reset { State.reset with flags := ⟨false, false, true, true⟩ } = .next t ∧
    t.flags.sf ≠ true ∧ t.flags.pf ≠ true := ⟨_, rfl, by decide⟩
theorem witness_MemoryWriters_store : ∃ t, exec (.movMR 0x80 .r2) (storing 0x80) = .next t ∧
    t.readByte 0x80 ≠ (storing 0x80).readByte 0x80 := ⟨_, rfl, by decide⟩
theorem witness_MemoryWriters_reset : ∃ t, exec .reset (at_ 0 [(0xFF, 0x11)]) = .next t ∧
    t.readByte 0xFF ≠ (at_ 0 [(0xFF, 0x11)]).readByte 0xFF := ⟨_, rfl, by decide⟩
theorem witness_ProgramCounterWriters_jump : ∃ t, exec (.jnc 0x40) State.reset = .next t ∧
    t.pc ≠ State.reset.pc + BitVec.ofNat 8 (Instr.jnc 0x40).length := ⟨_, rfl, by decide⟩
theorem witness_ProgramCounterWriters_reset : ∃ t, exec .reset State.reset = .next t ∧
    t.pc ≠ State.reset.pc + BitVec.ofNat 8 Instr.reset.length := ⟨_, rfl, by decide⟩
theorem witness_StepKeepsMemoryCanonical : ∃ t, (storing 0x80).MemCanonical ∧ step (storing 0x80) = .next t :=
  ⟨_, by decide, rfl⟩
theorem witness_StepKeepsSignParityClear : ∃ t, (at_ 0 [(0, 0xE1)]).SignParityClear ∧ step (at_ 0 [(0, 0xE1)]) = .next t :=
  ⟨_, by decide, rfl⟩
theorem witness_StepPreservesProgramPartition : ∃ t, step (storing 0x80) = .next t ∧ stepWith params (storing 0x80) = .next t ∧
    params.resetClearsProgram = false ∧ (0x7F#8 < 0x80#8) := ⟨_, rfl, rfl, by decide⟩
theorem witness_FaultIsExactlyALowStore : ((storing 0x7F).readByte 0).extractLsb' 4 4 = 0x2#4 ∧
    (storing 0x7F).readByte 1 < 0x80#8 ∧ step (storing 0x7F) = .fault (.protectedRegion 0x7F) := ⟨by decide, by decide, rfl⟩
theorem witness_FaultedStepRepeatsForever :
    hostStep params (storing 0x00) = (storing 0x00, .fault (.protectedRegion 0x00)) := by decide
theorem witness_ControlFlowIgnoresData : ∃ s', step { storing 0x80 with acc := 5 } = .next s' ∧
    { storing 0x80 with acc := 5 }.pc = (storing 0x80).pc ∧ { storing 0x80 with acc := 5 }.mem = (storing 0x80).mem :=
  ⟨_, rfl, rfl, rfl⟩
theorem witness_ControlFlowIgnoresData_fault :
    step { storing 0x7F with acc := 5 } = .fault (.protectedRegion 0x7F) := rfl
-- J8
theorem witness_JumpToItselfIsAFixedPoint : (at_ 0x20 [(0x20, 0x51), (0x21, 0x20)]).readByte 0x20 = 0x51#8 ∧
    (at_ 0x20 [(0x20, 0x51), (0x21, 0x20)]).readByte 0x21 = 0x20#8 ∧
    (at_ 0x20 [(0x20, 0x51), (0x21, 0x20)]).flags.sf = false := by decide
theorem witness_StoredByteIsFetched : ∃ t u : State, exec (.movMR 0x82 .r2) (storing 0x82) = .next t ∧ u.mem = t.mem ∧
    u.pc = 0x82 := ⟨_, { State.reset with pc := 0x82, mem := _ }, rfl, rfl, rfl⟩
theorem witness_StoredByteIsFetched_force : ∃ u : State, u.mem = (State.reset.forceWrite 0x00 0x44).mem ∧ u.pc = 0x00 :=
  ⟨{ State.reset with mem := _ }, rfl, rfl⟩
theorem witness_IgnoredEncodingsOnlyAdvancePc : ∀ op ∈ [0x90#8, 0x9F, 0xA0, 0xAF, 0xB0, 0xBF, 0xC0, 0xCE],
    ignoredEvent (State.reset.forceWrite 0 op) = some (op, 0) := by decide
theorem witness_WritePortsEnforceThePartition : (0x7F#8 < 0x80#8) ∧ 0x80#8 ≤ 0x80#8 ∧ 0x80#8 ≤ 0xFF#8 := by decide
theorem witness_LoadAddressesAlias : 0x80#8 ≤ 0x80#8 ∧ 0x80#8 ≤ 0xFF#8 := by decide
theorem witness_LoadBuildsTheMachine : ([] : List Byte).length ≤ 128 ∧ (List.replicate 128 0x61#8).length ≤ 128 := by simp
theorem witness_LongImageIsRefused :
    128 < (List.replicate 129 0x61#8).length ∧ (List.replicate 128 0x61#8).length = 128 := by simp
theorem witness_HostReadsWithoutEffect :
    HostOp.forceWrite 0 1 ∈ [HostOp.memReset true, .memWrite 0 1, .forceWrite 0 1] := by decide
theorem witness_IdleEngineOnlyLoads : ∀ image, HostOp.step ≠ .load image := by intro image h; cases h
theorem witness_HostSequencesKeepInvariants : State.reset.MemCanonical ∧ State.reset.SignParityClear := by decide
theorem witness_ParameterAlternatives_values : ∃ p : Params, p.storeAddr = .masked ∧ p.logicOp3 = .nop ∧ p.ret = .restore ∧
    p.resetClearsProgram = true ∧ p.jumpConsume = .takenOnly :=
  ⟨⟨.masked, .takenOnly, .nop, .restore, .ignore, true, .advanced⟩, by decide⟩
theorem witness_ParameterAlternatives_bytes : (0x48#8 &&& ignoredBits 0x48#8 ≠ 0#8) ∧ (0x8B#8 &&& ignoredBits 0x8B#8 ≠ 0#8) ∧
    (0x40#8 &&& ignoredBits 0x40#8 = 0#8) ∧ (0x8F#8 &&& ignoredBits 0x8F#8 = 0#8) := by decide
theorem witness_ParameterAlternatives_fault : ∃ t f, hostStep { params with faultPc := .advanced } (storing 0x7F) =
    (t, .fault f) := ⟨_, _, rfl⟩
/-- The default machine under another value of P_NONCANON. -/
def nonCanonIs (nc : NonCanon) : Params := { params with nonCanon := nc }
theorem witness_ParameterAlternatives_nop : (nonCanonIs .nop).nonCanon = .nop ∧
    (at_ 0 [(0, 0x2E)]).readByte 0 &&& ignoredBits ((at_ 0 [(0, 0x2E)]).readByte 0) ≠ 0#8 := by decide
theorem witness_ParameterAlternatives_refuse : (nonCanonIs (.refuse .r76)).nonCanon = .refuse .r76 ∧
    (nonCanonIs (.refuse .r84)).nonCanon = .refuse .r84 ∧ ((at_ 0 [(0, 0xE4)]).readByte 0).toNat / 16 ≠ 8 ∧
    (at_ 0 [(0, 0xE4)]).readByte 0 &&& ignoredBits ((at_ 0 [(0, 0xE4)]).readByte 0) ≠ 0#8 := by decide
theorem witness_ParameterAlternatives_family8 : ((at_ 0 [(0, 0x8B)]).readByte 0).toNat / 16 = 8 ∧
    (at_ 0 [(0, 0x8B)]).readByte 0 &&& ignoredBits ((at_ 0 [(0, 0x8B)]).readByte 0) ≠ 0#8 ∧
    decode (at_ 0 [(0, 0x8B)]).fetchBytes = .instr .notAcc [0x00] := by decide
theorem witness_HostStepReportsHowTheStepEnded_next : ∃ t, stepWith params State.reset = .next t := ⟨_, rfl⟩
theorem witness_HostStepReportsHowTheStepEnded_fault :
    stepWith params (storing 0x7F) = .fault (.protectedRegion 0x7F) ∧ params.faultPc = .restored := ⟨rfl, rfl⟩
theorem witness_HostStepReportsHowTheStepEnded_refused : stepWith (nonCanonIs (.refuse .r84)) (at_ 0 [(0, 0xE4)]) =
    .refused (.undecodable (.nonCanonical 0xE4)) := rfl
theorem witness_TakenOnlyJumpAlternative : ∃ p : Params, p.jumpConsume = .takenOnly :=
  ⟨{ params with jumpConsume := .takenOnly }, rfl⟩

end Sys2Proof.Tests
end

section
/-! Loads (20_memory.md R48, 40_data_movement.md R102, R107): the number of a data address, and what the two load
instructions do to the state. -/

namespace Sys2Proof.Machine

/-- The masked byte is below 2 ^ 7, so joining bit 7 to it adds 128. -/
theorem dataAddr_toNat (a : Byte) : (dataAddr a).toNat = 128 + a.toNat % 128 := by
  have hmask : a.toNat &&& 127 = a.toNat % 128 := Nat.and_two_pow_sub_one_eq_mod a.toNat 7
  have hjoin : 128 + a.toNat % 128 = 128 ||| a.toNat % 128 :=
    Nat.two_pow_add_eq_or_of_lt (i := 7) (Nat.mod_lt _ (by decide)) 1
  calc (dataAddr a).toNat = 128 ||| (a.toNat &&& 127) := rfl
    _ = 128 + a.toNat % 128 := by rw [hmask, hjoin]

/-- R102 `MOV Rd,[a]`: PC passes the two bytes and `x[d]` gets the loaded byte. -/
theorem exec_movRM (d : Reg) (a : Byte) (s : State) :
    exec (.movRM d a) s = .next ((s.advance 2#8).setReg d (s.readByte (dataAddr a))) := rfl

/-- R107 `MOV ACC,[a]`: PC passes the two bytes and ACC gets the loaded byte. -/
theorem exec_movAccM (a : Byte) (s : State) :
    exec (.movAccM a) s = .next ((s.advance 2#8).setAcc (s.readByte (dataAddr a))) := rfl

/-- Settles O51, from the number of a data address and the next state of each load. -/
theorem loadsReadOnlyTheDataPartition : Obligations.LoadsReadOnlyTheDataPartition := by
  refine ⟨fun a => ⟨dataAddr_toNat a, rfl⟩, fun d a s => ?_, fun a s => ?_⟩
  · exact ⟨_, exec_movRM d a s, State.reg_setReg_same _ d _⟩
  · exact ⟨_, exec_movAccM a s, State.setAcc_acc _ _⟩

end Sys2Proof.Machine
end

section
/-! No opcode byte traps (30_encoding.md R77): a fetch always gives an instruction, a step runs it, and of all the
instructions only a store below 0x80 does not complete. -/

namespace Sys2Proof.Machine

/-! ### Decoding what a fetch gives -/

/-- Every opcode byte selects a row, and with an operand byte at hand every row reads an instruction (R77). -/
theorem decode_cons_cons_isInstr (op b : Byte) (rest : List Byte) :
    ∃ i rest', decode (op :: b :: rest) = .instr i rest' := by
  obtain ⟨row, hrow⟩ := Option.isSome_iff_exists.mp (lookup_total op)
  have hread : decode (op :: b :: rest) = row.read op (b :: rest) := by
    rw [decode_eq, decodeWith_ignore, hrow]; rfl
  exact ⟨_, _, hread.trans (row.read_cons op b rest)⟩

theorem decode_fetchBytes_isInstr (s : State) : ∃ i rest, decode s.fetchBytes = .instr i rest :=
  decode_cons_cons_isInstr _ _ []

/-- A step runs the instruction that stands at PC (R80). -/
theorem step_of_decode {s : State} {i : Instr} {rest : List Byte} (h : decode s.fetchBytes = .instr i rest) :
    step s = exec i s := by
  rw [step_eq_stepWith, exec_eq_execWith]
  exact stepWith_instr params s h

/-- The empty cell is `MOV r0,r0` (R77). -/
theorem decode_zero (rest : List Byte) : decode (0x00#8 :: rest) = .instr (.movRR .r0 .r0) rest := rfl

/-! ### How an instruction ends -/

/-- R105 `MOV [a],Rs`: the raw operand goes to the partition enforcer, which refuses it below 0x80. -/
theorem exec_movMR (a : Byte) (r : Reg) (s : State) :
    exec (.movMR a r) s =
      if a < 0x80#8 then .fault (.protectedRegion a) else .next ((s.advance 2#8).forceWrite a (s.reg r)) :=
  storeWith_eq .rawEnforced a (s.reg r) s

/-- Every instruction gives a next state but a store below 0x80, which faults. -/
theorem exec_next_or_lowStore (i : Instr) (s : State) :
    (∃ t, exec i s = .next t) ∨
    ∃ a r, i = .movMR a r ∧ a < 0x80#8 ∧ exec i s = .fault (.protectedRegion a) := by
  cases i with
  | movMR a r =>
    by_cases hlow : a < 0x80#8
    · exact .inr ⟨a, r, rfl, hlow, (exec_movMR a r s).trans (if_pos hlow)⟩
    · exact .inl ⟨_, (exec_movMR a r s).trans (if_neg hlow)⟩
  | jnc t | jns t | jnz t | jnp t | jc t | js t | jz t | jp t | jcD t | jsD t | jzD t | jpD t
  | jncD t | jnsD t | jnzD t | jnpD t =>
    left
    rw [exec_eq_execWith]
    exact ⟨_, by rw [execWith, jumpWith_eq]⟩
  | _ => exact .inl ⟨_, rfl⟩

/-- Every step gives a next state, unless a store below 0x80 stands at PC, on which it faults. -/
theorem step_next_or_lowStore (s : State) :
    (∃ t, step s = .next t) ∨
    ∃ a r rest, decode s.fetchBytes = .instr (.movMR a r) rest ∧ a < 0x80#8 ∧
      step s = .fault (.protectedRegion a) := by
  obtain ⟨i, rest, hdecode⟩ := decode_fetchBytes_isInstr s
  rw [step_of_decode hdecode]
  rcases exec_next_or_lowStore i s with hnext | ⟨a, r, rfl, hlow, hfault⟩
  · exact .inl hnext
  · exact .inr ⟨a, r, rest, hdecode, hlow, hfault⟩

theorem step_ne_refused (s : State) (r : Refusal) : step s ≠ .refused r := by
  rcases step_next_or_lowStore s with ⟨t, hstep⟩ | ⟨_, _, _, -, -, hstep⟩ <;> simp [hstep]

theorem decode_of_step_fault {s : State} {f : Fault} (h : step s = .fault f) :
    ∃ (a : Byte) (r : Reg) (rest : List Byte), decode s.fetchBytes = .instr (.movMR a r) rest ∧ a < 0x80#8 := by
  rcases step_next_or_lowStore s with ⟨t, hstep⟩ | ⟨a, r, rest, hdecode, hlow, -⟩
  · simp [hstep] at h
  · exact ⟨a, r, rest, hdecode, hlow⟩

/-! ### The step on an empty cell -/

/-- R100 `MOV Rd,Rs`: PC passes one byte and `x[d]` gets `x[r]`. -/
theorem exec_movRR (d r : Reg) (s : State) :
    exec (.movRR d r) s = .next ((s.advance 1#8).setReg d (s.reg r)) := rfl

theorem State.reg_setReg_self (s : State) (d k : Reg) : (s.setReg d (s.reg d)).reg k = s.reg k := by
  by_cases hk : k = d
  · rw [hk, State.reg_setReg_same]
  · exact State.reg_setReg_other s _ hk

/-- A register moved onto itself changes nothing but PC. -/
theorem onlyPc_advance_setReg_self (s : State) (n : Byte) (d : Reg) :
    OnlyPc s ((s.advance n).setReg d (s.reg d)) :=
  ⟨State.reg_setReg_self (s.advance n) d, rfl, rfl, rfl, fun _ => rfl⟩

theorem step_of_empty_cell {s : State} (h : s.readByte s.pc = 0x00#8) :
    step s = .next ((s.advance 1#8).setReg .r0 (s.reg .r0)) := by
  have hdecode : decode s.fetchBytes = .instr (.movRR .r0 .r0) [s.readByte (s.pc + 1#8)] := by
    rw [State.fetchBytes_eq, h, decode_zero]
  rw [step_of_decode hdecode, exec_movRR]

/-- Settles O2: decoding is total on what a fetch gives, how a step ends follows from how its instruction ends, and
the empty cell's instruction is a register moved onto itself. -/
theorem everyOpcodeByteIsAnInstruction : Obligations.EveryOpcodeByteIsAnInstruction := by
  refine ⟨decode_cons_cons_isInstr, step_ne_refused, fun s f hfault => decode_of_step_fault hfault, decode_zero,
    fun s hempty => ?_⟩
  exact ⟨_, step_of_empty_cell hempty, rfl, onlyPc_advance_setReg_self s 1#8 .r0⟩

end Sys2Proof.Machine
end

section
/-! Decoding by row (30_encoding.md R72, R81): a byte whose fixed bits are those of a row of the opcode table decodes by
that row, whatever stands in the byte's fields and in the bits the row ignores. -/

namespace Sys2Proof

open Sys2Proof.Statements

/-! ### The row of a byte -/

/-- Each byte selects one row only (R77), so any row it selects is the row looked up. -/
theorem lookup_of_mask {row : OpRow} {op : Byte} (hmem : row ∈ opTable) (hmask : op &&& row.mask = row.pat) :
    lookup op = some row := by
  obtain ⟨only, honly⟩ := List.length_eq_one_iff.mp (opTable_selects_one op)
  have hrow : row ∈ opTable.filter (fun row => row.selects op) :=
    List.mem_filter.mpr ⟨hmem, beq_iff_eq.mpr hmask⟩
  rw [honly, List.mem_singleton] at hrow
  rw [lookup, ← List.head?_filter, honly, hrow, List.head?_cons]

theorem decode_of_mask {row : OpRow} {op : Byte} (hmem : row ∈ opTable) (hmask : op &&& row.mask = row.pat)
    (rest : List Byte) : decode (op :: rest) = row.read op rest := by
  rw [decode_eq, decodeWith_ignore, lookup_of_mask hmem hmask]; rfl

theorem OpRow.read_oneByte {row : OpRow} (hone : row.two = false) (op : Byte) (rest : List Byte) :
    row.read op rest = .instr (row.build op 0#8) rest := by
  unfold OpRow.read; rw [hone]

theorem OpRow.read_twoByte {row : OpRow} (htwo : row.two = true) (op b : Byte) (rest : List Byte) :
    row.read op (b :: rest) = .instr (row.build op b) rest := by
  simp [OpRow.read_cons, htwo]

theorem oneByte_of_row {row : OpRow} {op : Byte} {i : Instr} (hmem : row ∈ opTable)
    (hmask : op &&& row.mask = row.pat) (hone : row.two = false) (hbuild : row.build op 0#8 = i) : OneByte op i := by
  intro rest
  rw [decode_of_mask hmem hmask, OpRow.read_oneByte hone, hbuild]

theorem twoByte_of_row {row : OpRow} {op : Byte} {i : Byte → Instr} (hmem : row ∈ opTable)
    (hmask : op &&& row.mask = row.pat) (htwo : row.two = true) (hbuild : ∀ b, row.build op b = i b) :
    TwoByte op i := by
  intro b rest
  rw [decode_of_mask hmem hmask, OpRow.read_twoByte htwo, hbuild]

/-! ### The fixed bits and the fields of a byte written field by field (R72) -/

/-- Mask 0xF0 keeps the family. -/
theorem and_maskFamily : ∀ (f : BitVec 4) (u v : BitVec 2), (f ++ u ++ v) &&& 0xF0#8 = f ++ 0#2 ++ 0#2 := by decide

/-- Mask 0xF3 keeps the family and `op[1:0]`. -/
theorem and_maskFamilyLow2 : ∀ (f : BitVec 4) (u v : BitVec 2), (f ++ u ++ v) &&& 0xF3#8 = f ++ 0#2 ++ v := by decide

/-- Mask 0xF1 keeps the family and `op[0]`. -/
theorem and_maskFamilyLow1 :
    ∀ (f : BitVec 4) (u : BitVec 3) (v : BitVec 1), (f ++ u ++ v) &&& 0xF1#8 = f ++ 0#3 ++ v := by decide

theorem fieldLo_append (hi : BitVec 6) (r : Reg) : fieldLo (hi ++ r.bits) = r := by
  unfold fieldLo
  rw [BitVec.extractLsb'_append_eq_right, Reg.ofBits_bits]

theorem fieldHi_append (f : BitVec 4) (d : Reg) (lo : BitVec 2) : fieldHi (f ++ d.bits ++ lo) = d := by
  unfold fieldHi
  rw [BitVec.extractLsb'_append_eq_of_le (Nat.le_refl 2), BitVec.extractLsb'_append_eq_right, Reg.ofBits_bits]

/-! ### The bytes of the data movement instructions (40_data_movement.md) -/

theorem oneByte_movRR (d r : Reg) : OneByte (0x0#4 ++ d.bits ++ r.bits) (.movRR d r) :=
  oneByte_of_row (row := ⟨0x00#8, 0xF0#8, 0x00#8, false, fun op _ => .movRR (fieldHi op) (fieldLo op)⟩)
    (by simp [opTable, rowsMove]) (and_maskFamily _ _ _) rfl
    (congrArg₂ Instr.movRR (fieldHi_append _ d _) (fieldLo_append _ r))

theorem twoByte_movRI (d : Reg) : TwoByte (0x1#4 ++ d.bits ++ 0b00#2) (.movRI d) :=
  twoByte_of_row (row := ⟨0x10#8, 0xF3#8, 0x00#8, true, fun op b => .movRI (fieldHi op) b⟩)
    (by simp [opTable, rowsMove]) (and_maskFamilyLow2 _ _ _) rfl
    (fun b => congrArg (Instr.movRI · b) (fieldHi_append _ d _))

theorem twoByte_movRM (d : Reg) : TwoByte (0x1#4 ++ d.bits ++ 0b01#2) (.movRM d) :=
  twoByte_of_row (row := ⟨0x11#8, 0xF3#8, 0x00#8, true, fun op b => .movRM (fieldHi op) b⟩)
    (by simp [opTable, rowsMove]) (and_maskFamilyLow2 _ _ _) rfl
    (fun b => congrArg (Instr.movRM · b) (fieldHi_append _ d _))

theorem oneByte_movRAcc (d : Reg) : OneByte (0x1#4 ++ d.bits ++ 0b10#2) (.movRAcc d) :=
  oneByte_of_row (row := ⟨0x12#8, 0xF3#8, 0x00#8, false, fun op _ => .movRAcc (fieldHi op)⟩)
    (by simp [opTable, rowsMove]) (and_maskFamilyLow2 _ _ _) rfl (congrArg Instr.movRAcc (fieldHi_append _ d _))

theorem twoByte_movAccI (u : BitVec 3) : TwoByte (0x3#4 ++ u ++ 0b0#1) .movAccI :=
  twoByte_of_row (row := ⟨0x30#8, 0xF1#8, 0x0E#8, true, fun _ b => .movAccI b⟩)
    (by simp [opTable, rowsMove]) (and_maskFamilyLow1 _ _ _) rfl (fun _ => rfl)

theorem twoByte_movAccM (u : BitVec 3) : TwoByte (0x3#4 ++ u ++ 0b1#1) .movAccM :=
  twoByte_of_row (row := ⟨0x31#8, 0xF1#8, 0x0E#8, true, fun _ b => .movAccM b⟩)
    (by simp [opTable, rowsMove]) (and_maskFamilyLow1 _ _ _) rfl (fun _ => rfl)

theorem oneByte_xchg (u : BitVec 2) (r : Reg) : OneByte (0xD#4 ++ u ++ r.bits) (.xchg r) :=
  oneByte_of_row (row := ⟨0xD0#8, 0xF0#8, 0x0C#8, false, fun op _ => .xchg (fieldLo op)⟩)
    (by simp [opTable, rowsControl]) (and_maskFamily _ _ _) rfl (congrArg Instr.xchg (fieldLo_append _ r))

end Sys2Proof
end

section
/-! Data movement (40_data_movement.md R100 to R103, R106 to R108): a move is one write past the instruction's bytes,
and an exchange undoes itself. -/

namespace Sys2Proof.Machine

open Sys2Proof.Statements

/-! ### Moves to a register and to ACC -/

/-- An instruction that ends by writing `x[d]` changes `x[d]` and PC only. -/
theorem putsInReg_of_exec {n : Byte} {d : Reg} {i : Instr} {v : State → Byte}
    (h : ∀ s, exec i s = .next ((s.advance n).setReg d (v s))) : PutsInReg n d i v := by
  intro s
  have hframe : OnlyRegAndPc d s ((s.advance n).setReg d (v s)) :=
    ⟨fun _ hk => State.reg_setReg_other _ _ hk, rfl, rfl, rfl, fun _ => rfl⟩
  exact ⟨_, h s, State.reg_setReg_same _ d _, rfl, hframe⟩

/-- An instruction that ends by writing ACC changes ACC and PC only. -/
theorem putsInAcc_of_exec {n : Byte} {i : Instr} {v : State → Byte}
    (h : ∀ s, exec i s = .next ((s.advance n).setAcc (v s))) : PutsInAcc n i v := by
  intro s
  have hframe : OnlyAccAndPc s ((s.advance n).setAcc (v s)) := ⟨fun _ => rfl, rfl, rfl, fun _ => rfl⟩
  exact ⟨_, h s, rfl, rfl, hframe⟩

/-- R101 `MOV Rd,#imm`: PC passes the two bytes and `x[d]` gets the immediate. -/
theorem exec_movRI (d : Reg) (imm : Byte) (s : State) :
    exec (.movRI d imm) s = .next ((s.advance 2#8).setReg d imm) := rfl

/-- R103 `MOV Rd,ACC`: PC passes one byte and `x[d]` gets ACC. -/
theorem exec_movRAcc (d : Reg) (s : State) : exec (.movRAcc d) s = .next ((s.advance 1#8).setReg d s.acc) := rfl

/-- R106 `MOV ACC,#imm`: PC passes the two bytes and ACC gets the immediate. -/
theorem exec_movAccI (imm : Byte) (s : State) : exec (.movAccI imm) s = .next ((s.advance 2#8).setAcc imm) := rfl

/-- Settles O10: the byte by its row, the effect as one write of `x[d]`. -/
theorem movRegRegCopies : Obligations.MovRegRegCopies :=
  ⟨oneByte_movRR, fun d r => putsInReg_of_exec (exec_movRR d r)⟩

/-- Settles O11: the byte by its row, the effect as one write of `x[d]`. -/
theorem movRegImmLoads : Obligations.MovRegImmLoads :=
  ⟨twoByte_movRI, fun d imm => putsInReg_of_exec (exec_movRI d imm)⟩

/-- Settles O12: the byte by its row, the effect as one write of `x[d]` with the byte at the data address. -/
theorem movRegMemLoads : Obligations.MovRegMemLoads :=
  ⟨twoByte_movRM, fun d a => putsInReg_of_exec (exec_movRM d a)⟩

/-- Settles O13: the byte by its row, the effect as one write of `x[d]`. -/
theorem movRegAccCopies : Obligations.MovRegAccCopies :=
  ⟨oneByte_movRAcc, fun d => putsInReg_of_exec (exec_movRAcc d)⟩

/-- Settles O17: the byte by its row, whatever its ignored bits; the effect as one write of ACC. -/
theorem movAccImmLoads : Obligations.MovAccImmLoads :=
  ⟨twoByte_movAccI, fun imm => putsInAcc_of_exec (exec_movAccI imm)⟩

/-- Settles O18: the byte by its row, whatever its ignored bits; the effect as one write of ACC with the byte at the
data address. -/
theorem movAccMemLoads : Obligations.MovAccMemLoads :=
  ⟨twoByte_movAccM, fun a => putsInAcc_of_exec (exec_movAccM a)⟩

/-! ### The exchange -/

/-- R108 `XCHG ACC,Rn`: PC passes one byte, ACC gets `x[r]` and `x[r]` gets ACC. -/
theorem exec_xchg (r : Reg) (s : State) :
    exec (.xchg r) s = .next (((s.advance 1#8).setAcc (s.reg r)).setReg r s.acc) := rfl

theorem exec_xchg_swaps (r : Reg) (s : State) :
    ∃ t, exec (.xchg r) s = .next t ∧ t.acc = s.reg r ∧ t.reg r = s.acc ∧
      SameRegsBut r s t ∧ t.pc = s.pc + 1#8 ∧ t.ct = s.ct ∧ t.flags = s.flags ∧ SameMem s t := by
  have hothers : SameRegsBut r s (((s.advance 1#8).setAcc (s.reg r)).setReg r s.acc) :=
    fun _ hk => State.reg_setReg_other _ _ hk
  exact ⟨_, exec_xchg r s, rfl, State.reg_setReg_same _ r _, hothers, rfl, rfl, rfl, fun _ => rfl⟩

/-- The second exchange swaps back what the first swapped, and neither touches another register. -/
theorem exec_xchg_twice_restores (r : Reg) (s : State) :
    ∃ t u, exec (.xchg r) s = .next t ∧ exec (.xchg r) t = .next u ∧ u.acc = s.acc ∧ SameRegs s u := by
  obtain ⟨t, ht, htacc, htreg, htothers, -⟩ := exec_xchg_swaps r s
  obtain ⟨u, hu, huacc, hureg, huothers, -⟩ := exec_xchg_swaps r t
  refine ⟨t, u, ht, hu, huacc.trans htreg, fun k => ?_⟩
  by_cases hk : k = r
  · rw [hk, hureg, htacc]
  · exact (huothers k hk).trans (htothers k hk)

/-- Settles O19: the byte by its row, whatever its ignored bits; the swap; and the swap applied twice. -/
theorem xchgSwapsAndIsAnInvolution : Obligations.XchgSwapsAndIsAnInvolution :=
  ⟨oneByte_xchg, exec_xchg_swaps, exec_xchg_twice_restores⟩

end Sys2Proof.Machine
end

section
/-! The bytes of increment, decrement, clear and the stub of family 0x9 (41_alu.md): each by its row of the opcode table,
whatever stands in the bits the row ignores (30_encoding.md R76). -/

namespace Sys2Proof

open Sys2Proof.Statements

/-- Mask 0xF0 keeps the family above four ignored bits. -/
theorem and_maskFamilyHigh4 : ∀ f u : BitVec 4, (f ++ u) &&& 0xF0#8 = f ++ 0#4 := by decide

/-- Mask 0xF4 keeps the family and `op[2]`. -/
theorem and_maskFamilyBit2 : ∀ (f : BitVec 4) (u v : BitVec 1) (w : BitVec 2),
    (f ++ u ++ v ++ w) &&& 0xF4#8 = f ++ 0#1 ++ v ++ 0#2 := by decide

theorem oneByte_incR (u : BitVec 1) (r : Reg) : OneByte (0x4#4 ++ u ++ 0b0#1 ++ r.bits) (.incR r) :=
  oneByte_of_row (row := ⟨0x40#8, 0xF4#8, 0x08#8, false, fun op _ => .incR (fieldLo op)⟩)
    (by simp [opTable, rowsMove]) (and_maskFamilyBit2 _ _ _ _) rfl (congrArg Instr.incR (fieldLo_append _ r))

theorem oneByte_decR (u : BitVec 1) (r : Reg) : OneByte (0x4#4 ++ u ++ 0b1#1 ++ r.bits) (.decR r) :=
  oneByte_of_row (row := ⟨0x44#8, 0xF4#8, 0x08#8, false, fun op _ => .decR (fieldLo op)⟩)
    (by simp [opTable, rowsMove]) (and_maskFamilyBit2 _ _ _ _) rfl (congrArg Instr.decR (fieldLo_append _ r))

theorem oneByte_incAcc (u : BitVec 3) : OneByte (0x6#4 ++ u ++ 0b1#1) .incAcc :=
  oneByte_of_row (row := ⟨0x61#8, 0xF1#8, 0x0E#8, false, fun _ _ => .incAcc⟩)
    (by simp [opTable, rowsAlu]) (and_maskFamilyLow1 _ _ _) rfl rfl

theorem oneByte_decAcc (u : BitVec 3) : OneByte (0x6#4 ++ u ++ 0b0#1) .decAcc :=
  oneByte_of_row (row := ⟨0x60#8, 0xF1#8, 0x0E#8, false, fun _ _ => .decAcc⟩)
    (by simp [opTable, rowsAlu]) (and_maskFamilyLow1 _ _ _) rfl rfl

theorem oneByte_clrAcc (u : BitVec 4) : OneByte (0x7#4 ++ u) .clrAcc :=
  oneByte_of_row (row := ⟨0x70#8, 0xF0#8, 0x0F#8, false, fun _ _ => .clrAcc⟩)
    (by simp [opTable, rowsAlu]) (and_maskFamilyHigh4 _ _) rfl rfl

theorem oneByte_nop9 (u : BitVec 4) : OneByte (0x9#4 ++ u) .nop9 :=
  oneByte_of_row (row := ⟨0x90#8, 0xF0#8, 0x0F#8, false, fun _ _ => .nop9⟩)
    (by simp [opTable, rowsAlu]) (and_maskFamilyHigh4 _ _) rfl rfl

end Sys2Proof
end

section
/-! Increment, decrement, clear and the stub of family 0x9 (41_alu.md R120 to R124, R129): each is one write past the
instruction's byte, or none, and increment and decrement count modulo 256 (R132). -/

namespace Sys2Proof.Machine

open Sys2Proof.Statements

/-! ### Counting modulo 256 (R132) -/

theorem incByte_eq_mod (v : Byte) : incByte v = BitVec.ofNat 8 ((v.toNat + 1) % 256) := by
  unfold incByte
  bv_omega

/-- One less is 255 more, modulo 256. -/
theorem decByte_eq_mod (v : Byte) : decByte v = BitVec.ofNat 8 ((v.toNat + 255) % 256) := by
  unfold decByte
  bv_omega

/-! ### The next state of each instruction -/

/-- R120 `INC Rn`: PC passes one byte and `x[r]` is incremented. -/
theorem exec_incR (r : Reg) (s : State) :
    exec (.incR r) s = .next ((s.advance 1#8).setReg r (incByte (s.reg r))) := rfl

/-- R121 `DEC Rn`: PC passes one byte and `x[r]` is decremented. -/
theorem exec_decR (r : Reg) (s : State) :
    exec (.decR r) s = .next ((s.advance 1#8).setReg r (decByte (s.reg r))) := rfl

/-- R122 `INC ACC`: PC passes one byte and ACC is incremented. -/
theorem exec_incAcc (s : State) : exec .incAcc s = .next ((s.advance 1#8).setAcc (incByte s.acc)) := rfl

/-- R123 `DEC ACC`: PC passes one byte and ACC is decremented. -/
theorem exec_decAcc (s : State) : exec .decAcc s = .next ((s.advance 1#8).setAcc (decByte s.acc)) := rfl

/-- R124 `CLR ACC`: PC passes one byte and ACC gets 0. -/
theorem exec_clrAcc (s : State) : exec .clrAcc s = .next ((s.advance 1#8).setAcc 0#8) := rfl

/-- R129 `NOP9`: PC passes one byte. -/
theorem exec_nop9 (s : State) : exec .nop9 s = .next (s.advance 1#8) := rfl

/-- An instruction that ends by passing its one byte changes PC only. -/
theorem doesNothing_of_exec {i : Instr} (h : ∀ s, exec i s = .next (s.advance 1#8)) : DoesNothing i := by
  intro s
  have hframe : OnlyPc s (s.advance 1#8) := ⟨fun _ => rfl, rfl, rfl, rfl, fun _ => rfl⟩
  exact ⟨_, h s, rfl, hframe⟩

/-! ### The statements -/

/-- Settles O20: the bytes by their rows, whatever `op[3]`; the effect as one write of `x[r]`, counted modulo 256. -/
theorem incDecRegisterWraps : Obligations.IncDecRegisterWraps := by
  refine ⟨oneByte_incR, oneByte_decR, fun r => putsInReg_of_exec fun s => ?_,
    fun r => putsInReg_of_exec fun s => ?_⟩
  · rw [exec_incR, incByte_eq_mod]
  · rw [exec_decR, decByte_eq_mod]

/-- Settles O21: the bytes by their rows, whatever `op[3:1]`; the effect as one write of ACC, counted modulo 256. -/
theorem incDecAccWraps : Obligations.IncDecAccWraps := by
  refine ⟨oneByte_incAcc, oneByte_decAcc, putsInAcc_of_exec fun s => ?_, putsInAcc_of_exec fun s => ?_⟩
  · rw [exec_incAcc, incByte_eq_mod]
  · rw [exec_decAcc, decByte_eq_mod]

/-- Settles O22: the byte by its row, whatever its ignored bits; the effect as one write of ACC. -/
theorem clrAccZeroes : Obligations.ClrAccZeroes :=
  ⟨oneByte_clrAcc, putsInAcc_of_exec exec_clrAcc⟩

/-- Settles O24: the byte by its row, whatever its ignored bits; the effect as PC's advance alone. -/
theorem stubNop9DoesNothing : Obligations.StubNop9DoesNothing :=
  ⟨oneByte_nop9, doesNothing_of_exec exec_nop9⟩

end Sys2Proof.Machine
end

section
/-! The call (42_control.md R143): its byte by the row of the opcode table, its effect as one write of CT past the operand
byte and one of PC. -/

namespace Sys2Proof

open Sys2Proof.Statements

theorem twoByte_call (u : BitVec 3) : TwoByte (0xC#4 ++ u ++ 0b1#1) .call :=
  twoByte_of_row (row := ⟨0xC1#8, 0xF1#8, 0x0E#8, true, fun _ b => .call b⟩)
    (by simp [opTable, rowsControl]) (and_maskFamilyLow1 _ _ _) rfl (fun _ => rfl)

end Sys2Proof

namespace Sys2Proof.Machine

/-- R143 `CALL t`: CT gets the address past the two bytes and PC the target. -/
theorem exec_call (target : Byte) (s : State) :
    exec (.call target) s = .next ((s.setCt (s.pc + 2#8)).setPc target) := rfl

/-- Settles O27: the byte by its row, whatever its ignored bits; the effect as one write of CT and one of PC. -/
theorem callSavesReturnAddress : Obligations.CallSavesReturnAddress := by
  refine ⟨twoByte_call, fun target s => ?_⟩
  have hregs : SameRegs s ((s.setCt (s.pc + 2#8)).setPc target) := fun _ => rfl
  have hmem : SameMem s ((s.setCt (s.pc + 2#8)).setPc target) := fun _ => rfl
  exact ⟨_, exec_call target s, rfl, rfl, hregs, rfl, rfl, hmem⟩

end Sys2Proof.Machine
end

section
/-! The flag instructions (43_flags_system.md R160 to R163): their bytes by their rows of the opcode table, whatever
stands in `op[3:2]` (30_encoding.md R76), their effect as one write of the flags past the instruction's byte. -/

namespace Sys2Proof

open Sys2Proof.Statements

theorem oneByte_clc (u : BitVec 2) : OneByte (0xE#4 ++ u ++ 0b00#2) .clc :=
  oneByte_of_row (row := ⟨0xE0#8, 0xF3#8, 0x0C#8, false, fun _ _ => .clc⟩)
    (by simp [opTable, rowsControl]) (and_maskFamilyLow2 _ _ _) rfl rfl

theorem oneByte_stc (u : BitVec 2) : OneByte (0xE#4 ++ u ++ 0b01#2) .stc :=
  oneByte_of_row (row := ⟨0xE1#8, 0xF3#8, 0x0C#8, false, fun _ _ => .stc⟩)
    (by simp [opTable, rowsControl]) (and_maskFamilyLow2 _ _ _) rfl rfl

theorem oneByte_clz (u : BitVec 2) : OneByte (0xE#4 ++ u ++ 0b10#2) .clz :=
  oneByte_of_row (row := ⟨0xE2#8, 0xF3#8, 0x0C#8, false, fun _ _ => .clz⟩)
    (by simp [opTable, rowsControl]) (and_maskFamilyLow2 _ _ _) rfl rfl

theorem oneByte_stz (u : BitVec 2) : OneByte (0xE#4 ++ u ++ 0b11#2) .stz :=
  oneByte_of_row (row := ⟨0xE3#8, 0xF3#8, 0x0C#8, false, fun _ _ => .stz⟩)
    (by simp [opTable, rowsControl]) (and_maskFamilyLow2 _ _ _) rfl rfl

end Sys2Proof

namespace Sys2Proof.Machine

open Sys2Proof.Statements

/-- An instruction that ends by writing the flags past its one byte changes the flags and PC only. -/
theorem putsFlags_of_exec {i : Instr} {f : State → Flags}
    (h : ∀ s, exec i s = .next ((s.advance 1#8).setFlags (f s))) : PutsFlags i f := by
  intro s
  have hregs : SameRegs s ((s.advance 1#8).setFlags (f s)) := fun _ => rfl
  have hmem : SameMem s ((s.advance 1#8).setFlags (f s)) := fun _ => rfl
  exact ⟨_, h s, rfl, rfl, hregs, rfl, rfl, hmem⟩

/-- R160 `CLC`: PC passes one byte and CF gets 0. -/
theorem exec_clc (s : State) :
    exec .clc s = .next ((s.advance 1#8).setFlags { s.flags with cf := false }) := rfl

/-- R161 `STC`: PC passes one byte and CF gets 1. -/
theorem exec_stc (s : State) :
    exec .stc s = .next ((s.advance 1#8).setFlags { s.flags with cf := true }) := rfl

/-- R162 `CLZ`: PC passes one byte and ZF gets 0. -/
theorem exec_clz (s : State) :
    exec .clz s = .next ((s.advance 1#8).setFlags { s.flags with zf := false }) := rfl

/-- R163 `STZ`: PC passes one byte and ZF gets 1. -/
theorem exec_stz (s : State) :
    exec .stz s = .next ((s.advance 1#8).setFlags { s.flags with zf := true }) := rfl

/-- Settles O30: the bytes by their rows, whatever `op[3:2]`; the effect as one write of the flags, in which one flag is
new and three are read back. -/
theorem flagInstructionsWriteOneFlag : Obligations.FlagInstructionsWriteOneFlag :=
  ⟨oneByte_clc, putsFlags_of_exec exec_clc, oneByte_stc, putsFlags_of_exec exec_stc,
    oneByte_clz, putsFlags_of_exec exec_clz, oneByte_stz, putsFlags_of_exec exec_stz⟩

end Sys2Proof.Machine
end

section
/-! The bytes of the instructions the sections above leave out (30_encoding.md R72): the store, the jumps, the logic
operations, the stubs and RESET. The sixteen jumps are one instruction in three parameters: the flag, the polarity bit and
the direct bit (42_control.md R140, R142). -/

namespace Sys2Proof

open Sys2Proof.Statements

/-! ### The sixteen jumps as one -/

/-- The jump on flag `sel` with polarity bit `w` and direct bit `d` (R142). -/
def jumpInstr (sel : FlagSel) (w d : Bool) (t : Byte) : Instr :=
  match d, w, sel with
  | false, false, .cf => .jnc t
  | false, false, .sf => .jns t
  | false, false, .zf => .jnz t
  | false, false, .pf => .jnp t
  | false, true, .cf => .jc t
  | false, true, .sf => .js t
  | false, true, .zf => .jz t
  | false, true, .pf => .jp t
  | true, false, .cf => .jcD t
  | true, false, .sf => .jsD t
  | true, false, .zf => .jzD t
  | true, false, .pf => .jpD t
  | true, true, .cf => .jncD t
  | true, true, .sf => .jnsD t
  | true, true, .zf => .jnzD t
  | true, true, .pf => .jnpD t

/-- The `ff` field that selects a flag (R140). -/
def FlagSel.bits : FlagSel → BitVec 2
  | .cf => 0#2
  | .sf => 1#2
  | .zf => 2#2
  | .pf => 3#2

/-- The opcode byte `0101 D W ff` of a jump (R142). -/
def jumpOp (sel : FlagSel) (w d : Bool) : Byte := 0x5#4 ++ BitVec.ofBool d ++ BitVec.ofBool w ++ sel.bits

theorem encode_jumpInstr (sel : FlagSel) (w d : Bool) (t : Byte) :
    encode (jumpInstr sel w d t) = [jumpOp sel w d, t] := by
  cases sel <;> cases w <;> cases d <;> rfl

theorem jumpInstr_length (sel : FlagSel) (w d : Bool) (t : Byte) : (jumpInstr sel w d t).length = 2 := by
  cases sel <;> cases w <;> cases d <;> rfl

theorem jumpOp_family (sel : FlagSel) (w d : Bool) : (jumpOp sel w d).toNat / 16 = 5 := by
  cases sel <;> cases w <;> cases d <;> rfl

theorem twoByte_of_lookup {op : Byte} {i : Byte → Instr}
    (h : (lookup op).map (fun row => (row.two, row.build op)) = some (true, i)) : TwoByte op i := by
  obtain ⟨row, hrow, hread⟩ := Option.map_eq_some_iff.mp h
  obtain ⟨htwo, hbuild⟩ := Prod.mk.inj hread
  intro b rest
  rw [decode_eq, decodeWith_ignore, hrow, ← hbuild]
  exact OpRow.read_twoByte htwo op b rest

theorem twoByte_jumpInstr (sel : FlagSel) (w d : Bool) : TwoByte (jumpOp sel w d) (jumpInstr sel w d) :=
  twoByte_of_lookup (by cases sel <;> cases w <;> cases d <;> rfl)

/-! ### The other bytes -/

theorem oneByte_movRPc (d : Reg) : OneByte (0x1#4 ++ d.bits ++ 0b11#2) (.movRPc d) :=
  oneByte_of_row (row := ⟨0x13#8, 0xF3#8, 0x00#8, false, fun op _ => .movRPc (fieldHi op)⟩)
    (by simp [opTable, rowsMove]) (and_maskFamilyLow2 _ _ _) rfl (congrArg Instr.movRPc (fieldHi_append _ d _))

theorem twoByte_movMR (u : BitVec 2) (r : Reg) : TwoByte (0x2#4 ++ u ++ r.bits) (fun a => .movMR a r) :=
  twoByte_of_row (row := ⟨0x20#8, 0xF0#8, 0x0C#8, true, fun op b => .movMR b (fieldLo op)⟩)
    (by simp [opTable, rowsMove]) (and_maskFamily _ _ _) rfl (fun b => congrArg (Instr.movMR b) (fieldLo_append _ r))

/-- Mask 0xFC keeps the family and `op[3:2]`. -/
theorem and_maskFamilyHigh2 : ∀ (f : BitVec 4) (u v : BitVec 2), (f ++ u ++ v) &&& 0xFC#8 = f ++ u ++ 0#2 := by decide

theorem oneByte_andAcc (r : Reg) : OneByte (0x8#4 ++ 0b00#2 ++ r.bits) (.andAcc r) :=
  oneByte_of_row (row := ⟨0x80#8, 0xFC#8, 0x00#8, false, fun op _ => .andAcc (fieldLo op)⟩)
    (by simp [opTable, rowsAlu]) (and_maskFamilyHigh2 _ _ _) rfl (congrArg Instr.andAcc (fieldLo_append _ r))

theorem oneByte_orAcc (r : Reg) : OneByte (0x8#4 ++ 0b01#2 ++ r.bits) (.orAcc r) :=
  oneByte_of_row (row := ⟨0x84#8, 0xFC#8, 0x00#8, false, fun op _ => .orAcc (fieldLo op)⟩)
    (by simp [opTable, rowsAlu]) (and_maskFamilyHigh2 _ _ _) rfl (congrArg Instr.orAcc (fieldLo_append _ r))

theorem oneByte_notAcc (u : BitVec 2) : OneByte (0x8#4 ++ 0b10#2 ++ u) .notAcc :=
  oneByte_of_row (row := ⟨0x88#8, 0xFC#8, 0x03#8, false, fun _ _ => .notAcc⟩)
    (by simp [opTable, rowsAlu]) (and_maskFamilyHigh2 _ _ _) rfl rfl

theorem oneByte_xorAcc (r : Reg) : OneByte (0x8#4 ++ 0b11#2 ++ r.bits) (.xorAcc r) :=
  oneByte_of_row (row := ⟨0x8C#8, 0xFC#8, 0x00#8, false, fun op _ => .xorAcc (fieldLo op)⟩)
    (by simp [opTable, rowsAlu]) (and_maskFamilyHigh2 _ _ _) rfl (congrArg Instr.xorAcc (fieldLo_append _ r))

theorem oneByte_nopA (u : BitVec 4) : OneByte (0xA#4 ++ u) .nopA :=
  oneByte_of_row (row := ⟨0xA0#8, 0xF0#8, 0x0F#8, false, fun _ _ => .nopA⟩)
    (by simp [opTable, rowsAlu]) (and_maskFamilyHigh4 _ _) rfl rfl

theorem oneByte_nopB (u : BitVec 4) : OneByte (0xB#4 ++ u) .nopB :=
  oneByte_of_row (row := ⟨0xB0#8, 0xF0#8, 0x0F#8, false, fun _ _ => .nopB⟩)
    (by simp [opTable, rowsAlu]) (and_maskFamilyHigh4 _ _) rfl rfl

theorem oneByte_ret (u : BitVec 3) : OneByte (0xC#4 ++ u ++ 0b0#1) .ret :=
  oneByte_of_row (row := ⟨0xC0#8, 0xF1#8, 0x0E#8, false, fun _ _ => .ret⟩)
    (by simp [opTable, rowsControl]) (and_maskFamilyLow1 _ _ _) rfl rfl

theorem oneByte_reset (u : BitVec 4) : OneByte (0xF#4 ++ u) .reset :=
  oneByte_of_row (row := ⟨0xF0#8, 0xF0#8, 0x0F#8, false, fun _ _ => .reset⟩)
    (by simp [opTable, rowsControl]) (and_maskFamilyHigh4 _ _) rfl rfl

end Sys2Proof
end

section
/-! Encoding and decoding undo each other (30_encoding.md R82, R84): what the encoder gives decodes to the instruction,
and what a fetched byte decodes to is encoded as that byte with its ignored bits cleared, and its operand byte. -/

namespace Sys2Proof

open Sys2Proof.Statements

/-! ### Decoding an encoding -/

theorem decode_encode_of_oneByte {i : Instr} {op : Byte} (h : OneByte op i) (henc : encode i = [op])
    (rest : List Byte) : decode (encode i ++ rest) = .instr i rest := by
  rw [henc]
  exact h rest

theorem decode_encode_of_twoByte {i : Byte → Instr} {op v : Byte} (h : TwoByte op i) (henc : encode (i v) = [op, v])
    (rest : List Byte) : decode (encode (i v) ++ rest) = .instr (i v) rest := by
  rw [henc]
  exact h v rest

theorem decode_encode_jumpInstr (sel : FlagSel) (w d : Bool) (t : Byte) (rest : List Byte) :
    decode (encode (jumpInstr sel w d t) ++ rest) = .instr (jumpInstr sel w d t) rest :=
  decode_encode_of_twoByte (twoByte_jumpInstr sel w d) (encode_jumpInstr sel w d t) rest

/-- The sums of R82 place the fields where R72 has them, so each encoding is a byte of its instruction's row. -/
theorem decode_encode (i : Instr) (rest : List Byte) : decode (encode i ++ rest) = .instr i rest := by
  cases i with
  | movRR d r => exact decode_encode_of_oneByte (oneByte_movRR d r) (by cases d <;> cases r <;> rfl) rest
  | movRI d imm => exact decode_encode_of_twoByte (twoByte_movRI d) (by cases d <;> rfl) rest
  | movRM d a => exact decode_encode_of_twoByte (twoByte_movRM d) (by cases d <;> rfl) rest
  | movRAcc d => exact decode_encode_of_oneByte (oneByte_movRAcc d) (by cases d <;> rfl) rest
  | movRPc d => exact decode_encode_of_oneByte (oneByte_movRPc d) (by cases d <;> rfl) rest
  | movMR a r =>
    exact decode_encode_of_twoByte (i := fun a => .movMR a r) (twoByte_movMR 0 r) (by cases r <;> rfl) rest
  | movAccI imm => exact decode_encode_of_twoByte (twoByte_movAccI 0) rfl rest
  | movAccM a => exact decode_encode_of_twoByte (twoByte_movAccM 0) rfl rest
  | incR r => exact decode_encode_of_oneByte (oneByte_incR 0 r) (by cases r <;> rfl) rest
  | decR r => exact decode_encode_of_oneByte (oneByte_decR 0 r) (by cases r <;> rfl) rest
  | jnc t => exact decode_encode_jumpInstr .cf false false t rest
  | jns t => exact decode_encode_jumpInstr .sf false false t rest
  | jnz t => exact decode_encode_jumpInstr .zf false false t rest
  | jnp t => exact decode_encode_jumpInstr .pf false false t rest
  | jc t => exact decode_encode_jumpInstr .cf true false t rest
  | js t => exact decode_encode_jumpInstr .sf true false t rest
  | jz t => exact decode_encode_jumpInstr .zf true false t rest
  | jp t => exact decode_encode_jumpInstr .pf true false t rest
  | jcD t => exact decode_encode_jumpInstr .cf false true t rest
  | jsD t => exact decode_encode_jumpInstr .sf false true t rest
  | jzD t => exact decode_encode_jumpInstr .zf false true t rest
  | jpD t => exact decode_encode_jumpInstr .pf false true t rest
  | jncD t => exact decode_encode_jumpInstr .cf true true t rest
  | jnsD t => exact decode_encode_jumpInstr .sf true true t rest
  | jnzD t => exact decode_encode_jumpInstr .zf true true t rest
  | jnpD t => exact decode_encode_jumpInstr .pf true true t rest
  | decAcc => exact decode_encode_of_oneByte (oneByte_decAcc 0) rfl rest
  | incAcc => exact decode_encode_of_oneByte (oneByte_incAcc 0) rfl rest
  | clrAcc => exact decode_encode_of_oneByte (oneByte_clrAcc 0) rfl rest
  | andAcc r => exact decode_encode_of_oneByte (oneByte_andAcc r) (by cases r <;> rfl) rest
  | orAcc r => exact decode_encode_of_oneByte (oneByte_orAcc r) (by cases r <;> rfl) rest
  | notAcc => exact decode_encode_of_oneByte (oneByte_notAcc 0) rfl rest
  | xorAcc r => exact decode_encode_of_oneByte (oneByte_xorAcc r) (by cases r <;> rfl) rest
  | nop9 => exact decode_encode_of_oneByte (oneByte_nop9 0) rfl rest
  | nopA => exact decode_encode_of_oneByte (oneByte_nopA 0) rfl rest
  | nopB => exact decode_encode_of_oneByte (oneByte_nopB 0) rfl rest
  | ret => exact decode_encode_of_oneByte (oneByte_ret 0) rfl rest
  | call t => exact decode_encode_of_twoByte (twoByte_call 0) rfl rest
  | xchg r => exact decode_encode_of_oneByte (oneByte_xchg 0 r) (by cases r <;> rfl) rest
  | clc => exact decode_encode_of_oneByte (oneByte_clc 0) rfl rest
  | stc => exact decode_encode_of_oneByte (oneByte_stc 0) rfl rest
  | clz => exact decode_encode_of_oneByte (oneByte_clz 0) rfl rest
  | stz => exact decode_encode_of_oneByte (oneByte_stz 0) rfl rest
  | reset => exact decode_encode_of_oneByte (oneByte_reset 0) rfl rest

/-- Settles O1, from the row of each instruction's canonical byte. -/
theorem decodeEncodeRoundTrip : Obligations.DecodeEncodeRoundTrip := decode_encode

/-! ### Encoding what was decoded -/

theorem encode_length (i : Instr) : (encode i).length = i.length := by
  cases i <;> rfl

/-- The formula of R75 and its list of byte numbers agree. -/
theorem opLength_eq_two_iff : ∀ op : Byte, opLength op = 2 ↔ BeginsTwoBytes op := by decide

/-- A row with an operand byte is selected by the bytes that begin two. -/
theorem two_of_lookup {op : Byte} {row : OpRow} (h : lookup op = some row) :
    row.two = decide (BeginsTwoBytes op) := by
  have hlen := lookup_two_eq_opLength op
  rw [h, Option.map_some, Option.some.injEq] at hlen
  rw [hlen, decide_eq_decide]
  exact opLength_eq_two_iff op

/-- Fields read from the opcode byte are encoded back to it; bits that no field and no row names are 0. -/
theorem encode_head_of_lookup : ∀ op : Byte,
    (lookup op).map (fun row => (encode (row.build op 0#8)).head?) = some (some (op &&& ~~~ ignoredBits op)) := by
  decide

/-- The operand byte is the second byte of the encoding, whole. -/
theorem encode_build : ∀ row ∈ opTable, ∀ op b : Byte,
    encode (row.build op b) = (encode (row.build op 0#8)).head?.toList ++ if row.two then [b] else [] := by
  simp [opTable, rowsMove, rowsJump, rowsAlu, rowsControl, encode]

/-- What two fetched bytes decode to, its encoding being these bytes with the ignored bits cleared. -/
theorem decode_cons_cons (op b : Byte) (rest : List Byte) :
    ∃ i, decode (op :: b :: rest) = .instr i (if BeginsTwoBytes op then rest else b :: rest) ∧
      encode i = (op &&& ~~~ ignoredBits op) :: if BeginsTwoBytes op then [b] else [] := by
  obtain ⟨row, hrow⟩ := Option.isSome_iff_exists.mp (lookup_total op)
  have htwo := two_of_lookup hrow
  refine ⟨row.build op (if row.two then b else 0#8), ?_, ?_⟩
  · rw [decode_eq, decodeWith_ignore, hrow, Option.map_some, Option.getD_some, OpRow.read_cons]
    simp only [htwo, decide_eq_true_eq]
  · have hhead := encode_head_of_lookup op
    rw [hrow, Option.map_some, Option.some.injEq] at hhead
    rw [encode_build row (List.mem_of_find?_eq_some hrow), hhead, htwo]
    by_cases h : BeginsTwoBytes op <;> simp [h]

/-- Encoding is a left inverse of decoding, but for the ignored bits. -/
theorem encode_of_decode {op b : Byte} {rest rest' : List Byte} {i : Instr}
    (h : decode (op :: b :: rest) = .instr i rest') :
    encode i = (op &&& ~~~ ignoredBits op) :: if BeginsTwoBytes op then [b] else [] := by
  obtain ⟨i', hdecode, hencode⟩ := decode_cons_cons op b rest
  rw [h] at hdecode
  cases hdecode
  exact hencode

theorem length_of_decode {op b : Byte} {rest rest' : List Byte} {i : Instr}
    (h : decode (op :: b :: rest) = .instr i rest') : i.length = if BeginsTwoBytes op then 2 else 1 := by
  rw [← encode_length, encode_of_decode h]
  split <;> rfl

/-! ### The statements -/

/-- Settles O4: the byte with its ignored bits cleared begins the encoding of what the byte decodes to, and that encoding
decodes back. -/
theorem ignoredBitsDoNotMatter : Obligations.IgnoredBitsDoNotMatter := by
  intro op b rest
  obtain ⟨i, hdecode, hencode⟩ := decode_cons_cons op b rest
  have hback := decode_encode i (if BeginsTwoBytes op then rest else b :: rest)
  rw [hencode] at hback
  rw [hdecode, ← hback]
  split <;> rfl

/-- Settles O5, from what two bytes decode to and the length of an encoding; the 64 bytes are counted. -/
theorem opcodeByteDecidesLength : Obligations.OpcodeByteDecidesLength := by
  refine ⟨fun op b rest htwo => ?_, fun op b rest hone => ?_, by decide⟩
  · obtain ⟨i, hdecode, -⟩ := decode_cons_cons op b rest
    exact ⟨i, by rw [hdecode, if_pos htwo], by rw [length_of_decode hdecode, if_pos htwo]⟩
  · obtain ⟨i, hdecode, -⟩ := decode_cons_cons op b rest
    exact ⟨i, by rw [hdecode, if_neg hone], by rw [length_of_decode hdecode, if_neg hone]⟩

/-- Settles O3: each word is a byte of a row whose fields and ignored bits are filled in. -/
theorem writtenOutWordsDecode : Obligations.WrittenOutWordsDecode :=
  ⟨oneByte_movRR .r1 .r2 [], twoByte_movRI .r3 _ [], twoByte_movRM .r1 _ [], oneByte_movRAcc .r2 [],
    oneByte_movRPc .r3 [], twoByte_movMR 3 .r2 _ [], twoByte_movAccM 7 _ [], oneByte_incR 1 .r3 [],
    twoByte_jumpInstr .cf true true _ [], oneByte_incAcc 0 [], oneByte_clrAcc 15 [], oneByte_xorAcc .r1 [],
    oneByte_nop9 15 [], oneByte_nopA 5 [], oneByte_nopB 15 [], oneByte_ret 7 [], twoByte_call 7 _ [],
    oneByte_xchg 3 .r3 [], oneByte_stz 3 [], oneByte_reset 0 []⟩

end Sys2Proof
end

section
/-! What one instruction can do, said once: the next state of each, and the nine shapes these have. The spec's lists of
writers (10_state.md sections 1 to 4, 20_memory.md section 7) are read off the shapes. -/

namespace Sys2Proof.Machine

open Sys2Proof.Statements

/-! ### The next state of the instructions the sections above leave out -/

/-- R104 `MOV Rd,PC`: PC passes one byte and `x[d]` gets the new PC. -/
theorem exec_movRPc (d : Reg) (s : State) :
    exec (.movRPc d) s = .next ((s.advance 1#8).setReg d (s.pc + 1#8)) := rfl

/-- R125 `AND ACC,Rs`. -/
theorem exec_andAcc (r : Reg) (s : State) :
    exec (.andAcc r) s = .next ((s.advance 1#8).setAcc (s.acc &&& s.reg r)) := rfl

/-- R126 `OR ACC,Rs`. -/
theorem exec_orAcc (r : Reg) (s : State) :
    exec (.orAcc r) s = .next ((s.advance 1#8).setAcc (s.acc ||| s.reg r)) := rfl

/-- R127 `NOT ACC`. -/
theorem exec_notAcc (s : State) : exec .notAcc s = .next ((s.advance 1#8).setAcc (~~~s.acc)) := rfl

/-- R128 `XOR ACC,Rs`. -/
theorem exec_xorAcc (r : Reg) (s : State) :
    exec (.xorAcc r) s = .next ((s.advance 1#8).setAcc (s.acc ^^^ s.reg r)) := rfl

/-- R130 `NOPA`: PC passes one byte. -/
theorem exec_nopA (s : State) : exec .nopA s = .next (s.advance 1#8) := rfl

/-- R131 `NOPB`: PC passes one byte. -/
theorem exec_nopB (s : State) : exec .nopB s = .next (s.advance 1#8) := rfl

/-- R144 `RET`: PC passes one byte (D5). -/
theorem exec_ret (s : State) : exec .ret s = .next (s.advance 1#8) := rfl

/-- R165 `RESET`: the engine reset that keeps the program. -/
theorem exec_reset (s : State) : exec .reset s = .next (s.engineReset false) := rfl

/-- R141: a jump is its parameters' `jumpWith`, whatever the parameters of the machine. -/
theorem execWith_jumpInstr (p : Params) (sel : FlagSel) (w d : Bool) (t : Byte) (s : State) :
    execWith p (jumpInstr sel w d t) s = jumpWith p.jumpConsume sel w d t s := by
  cases sel <;> cases w <;> cases d <;> rfl

/-- R141: PC is the target of a jump that is taken and passes the two bytes of one that is not. -/
theorem exec_jumpInstr (sel : FlagSel) (w d : Bool) (t : Byte) (s : State) :
    exec (jumpInstr sel w d t) s =
      .next (s.setPc (if jumpTaken (s.flags.get sel) w d then t else s.pc + 2#8)) := by
  rw [exec_eq_execWith, execWith_jumpInstr, jumpWith_eq]
  rfl

/-! ### The shapes -/

/-- The instructions that have general register `k` as destination, RESET aside and the exchange aside (R20). -/
def WritesReg (k : Reg) (i : Instr) : Prop :=
  (∃ r, i = .movRR k r) ∨ (∃ imm, i = .movRI k imm) ∨ (∃ a, i = .movRM k a) ∨ i = .movRAcc k ∨ i = .movRPc k ∨
    i = .incR k ∨ i = .decR k

/-- The instructions that write ACC, RESET and the exchange aside (R22). -/
def WritesAcc (i : Instr) : Prop :=
  (∃ imm, i = .movAccI imm) ∨ (∃ a, i = .movAccM a) ∨ i = .incAcc ∨ i = .decAcc ∨ i = .clrAcc ∨
    (∃ r, i = .andAcc r) ∨ (∃ r, i = .orAcc r) ∨ i = .notAcc ∨ (∃ r, i = .xorAcc r)

/-- The instructions of family 0xE. -/
def WritesFlag (i : Instr) : Prop := i = .clc ∨ i = .stc ∨ i = .clz ∨ i = .stz

/-- PC past the bytes of `i`, nothing else changed. -/
def State.past (s : State) (i : Instr) : State := s.advance (BitVec.ofNat 8 i.length)

/-- `Effect s i t`: run from `s`, instruction `i` gives `t` in one of nine ways. -/
inductive Effect (s : State) : Instr → State → Prop
  | reg {i d} (hi : WritesReg d i) (v : Byte) : Effect s i ((s.past i).setReg d v)
  | acc {i} (hi : WritesAcc i) (v : Byte) : Effect s i ((s.past i).setAcc v)
  | xchg (r : Reg) : Effect s (.xchg r) (((s.past (.xchg r)).setAcc (s.reg r)).setReg r s.acc)
  | store {a} (hdata : ¬ a < 0x80#8) (r : Reg) : Effect s (.movMR a r) ((s.past (.movMR a r)).forceWrite a (s.reg r))
  | flag {i} (hi : WritesFlag i) (f : Flags) : Effect s i ((s.past i).setFlags f)
  | skip (i : Instr) : Effect s i (s.past i)
  | jump (sel : FlagSel) (w d : Bool) (v : Byte) : Effect s (jumpInstr sel w d v)
      (s.setPc (if jumpTaken (s.flags.get sel) w d then v else s.pc + 2#8))
  | call (v : Byte) : Effect s (.call v) ((s.setCt (s.pc + 2#8)).setPc v)
  | reset : Effect s .reset (s.engineReset false)

theorem effect_of_exec_jumpInstr {sel : FlagSel} {w d : Bool} {v : Byte} {s t : State}
    (h : exec (jumpInstr sel w d v) s = .next t) : Effect s (jumpInstr sel w d v) t := by
  rw [exec_jumpInstr] at h
  cases h
  exact .jump sel w d v

/-- Whatever an instruction gives, it gives in one of the nine ways. -/
theorem effect_of_exec {i : Instr} {s t : State} (h : exec i s = .next t) : Effect s i t := by
  cases i with
  | movRR d r => cases h; exact .reg (.inl ⟨r, rfl⟩) _
  | movRI d imm => cases h; exact .reg (.inr (.inl ⟨imm, rfl⟩)) _
  | movRM d a => cases h; exact .reg (.inr (.inr (.inl ⟨a, rfl⟩))) _
  | movRAcc d | movRPc d | incR d | decR d => cases h; exact .reg (d := d) (by simp [WritesReg]) _
  | movMR a r =>
    rw [exec_movMR] at h
    split at h
    · cases h
    · next hdata => cases h; exact .store hdata r
  | movAccI _ | movAccM _ | incAcc | decAcc | clrAcc | andAcc _ | orAcc _ | notAcc | xorAcc _ =>
    cases h; exact .acc (by simp [WritesAcc]) _
  | jnc v => exact effect_of_exec_jumpInstr (sel := .cf) (w := false) (d := false) h
  | jns v => exact effect_of_exec_jumpInstr (sel := .sf) (w := false) (d := false) h
  | jnz v => exact effect_of_exec_jumpInstr (sel := .zf) (w := false) (d := false) h
  | jnp v => exact effect_of_exec_jumpInstr (sel := .pf) (w := false) (d := false) h
  | jc v => exact effect_of_exec_jumpInstr (sel := .cf) (w := true) (d := false) h
  | js v => exact effect_of_exec_jumpInstr (sel := .sf) (w := true) (d := false) h
  | jz v => exact effect_of_exec_jumpInstr (sel := .zf) (w := true) (d := false) h
  | jp v => exact effect_of_exec_jumpInstr (sel := .pf) (w := true) (d := false) h
  | jcD v => exact effect_of_exec_jumpInstr (sel := .cf) (w := false) (d := true) h
  | jsD v => exact effect_of_exec_jumpInstr (sel := .sf) (w := false) (d := true) h
  | jzD v => exact effect_of_exec_jumpInstr (sel := .zf) (w := false) (d := true) h
  | jpD v => exact effect_of_exec_jumpInstr (sel := .pf) (w := false) (d := true) h
  | jncD v => exact effect_of_exec_jumpInstr (sel := .cf) (w := true) (d := true) h
  | jnsD v => exact effect_of_exec_jumpInstr (sel := .sf) (w := true) (d := true) h
  | jnzD v => exact effect_of_exec_jumpInstr (sel := .zf) (w := true) (d := true) h
  | jnpD v => exact effect_of_exec_jumpInstr (sel := .pf) (w := true) (d := true) h
  | nop9 | nopA | nopB | ret => cases h; exact .skip _
  | call v => cases h; exact .call v
  | xchg r => cases h; exact .xchg r
  | clc | stc | clz | stz => cases h; exact .flag (by simp [WritesFlag]) _
  | reset => cases h; exact .reset

/-! ### The writers of each part of the state -/

theorem eq_of_reg_setReg_ne {s : State} {d k : Reg} {v : Byte} (h : (s.setReg d v).reg k ≠ s.reg k) : k = d := by
  by_contra hk
  exact h (State.reg_setReg_other s v hk)

/-- A general register is written by an instruction that names it, the exchange with it, or RESET. -/
theorem writesReg_of_reg_ne {i : Instr} {s t : State} {k : Reg} (h : exec i s = .next t) (hne : t.reg k ≠ s.reg k) :
    WritesReg k i ∨ i = .xchg k ∨ i = .reset := by
  cases effect_of_exec h with
  | reg hi v =>
    obtain rfl := eq_of_reg_setReg_ne (s := s.past i) hne
    exact .inl hi
  | xchg r =>
    obtain rfl := eq_of_reg_setReg_ne (s := (s.past (.xchg r)).setAcc (s.reg r)) hne
    exact .inr (.inl rfl)
  | reset => exact .inr (.inr rfl)
  | acc | store | flag | skip | jump | call => exact absurd rfl hne

/-- Settles O33, from the shapes that change a general register. -/
theorem generalRegisterWriters : Obligations.GeneralRegisterWriters := by
  intro i s t k h hne
  have hwriters := writesReg_of_reg_ne h hne
  simpa only [WritesReg, or_assoc] using hwriters

/-- ACC is written by an instruction that names it, the exchange, or RESET. -/
theorem writesAcc_of_acc_ne {i : Instr} {s t : State} (h : exec i s = .next t) (hne : t.acc ≠ s.acc) :
    WritesAcc i ∨ (∃ r, i = .xchg r) ∨ i = .reset := by
  cases effect_of_exec h with
  | acc hi v => exact .inl hi
  | xchg r => exact .inr (.inl ⟨r, rfl⟩)
  | reset => exact .inr (.inr rfl)
  | reg | store | flag | skip | jump | call => exact absurd rfl hne

/-- Settles O34, from the shapes that change ACC. -/
theorem accWriters : Obligations.AccWriters := by
  intro i s t h hne
  have hwriters := writesAcc_of_acc_ne h hne
  simpa only [WritesAcc, or_assoc] using hwriters

/-- Settles O35, from the shapes that change CT. -/
theorem callTargetWriters : Obligations.CallTargetWriters := by
  intro i s t h hne
  cases effect_of_exec h with
  | call v => exact .inl ⟨v, rfl⟩
  | reset => exact .inr rfl
  | reg | acc | xchg | store | flag | skip | jump => exact absurd rfl hne

/-- Settles O36, from the five ways an instruction can change the flags. -/
theorem flagWriters : Obligations.FlagWriters := by
  intro i s t h
  rw [exec_eq_execWith] at h
  rcases execWith_flags_cases params i s t h with hf | ⟨rfl, hf⟩ | ⟨rfl, hf⟩ | ⟨rfl, hf⟩ | ⟨rfl, hf⟩ | ⟨rfl, hf⟩ <;>
    simp [hf]

/-- Settles O37, from the shapes that change memory: the store changes its own cell, RESET the data partition. -/
theorem memoryWriters : Obligations.MemoryWriters := by
  intro i s t b h hne
  cases effect_of_exec h with
  | @store a hdata r =>
    have hcell : b = a := by
      by_contra hb
      exact hne (State.readByte_forceWrite_other (s.past (.movMR a r)) (s.reg r) hb)
    subst hcell
    exact ⟨BitVec.not_lt.mp hdata, .inl ⟨r, rfl, State.readByte_forceWrite_self _ b _⟩⟩
  | reset =>
    rw [State.readByte_engineReset] at hne ⊢
    by_cases hb : b < 0x80#8
    · simp [hb] at hne
    · exact ⟨BitVec.not_lt.mp hb, .inr ⟨rfl, by simp [hb]⟩⟩
  | reg | acc | xchg | flag | skip | jump | call => exact absurd rfl hne

/-! ### The program counter -/

/-- The instruction sets PC itself when the flags are `f`: a jump that is taken, CALL or RESET. -/
inductive Redirects (f : Flags) : Instr → Prop
  | jump {sel w d} (htaken : jumpTaken (f.get sel) w d = true) (v : Byte) : Redirects f (jumpInstr sel w d v)
  | call (v : Byte) : Redirects f (.call v)
  | reset : Redirects f .reset

/-- PC passes the bytes of every other instruction. -/
theorem pc_of_exec {i : Instr} {s t : State} (h : exec i s = .next t) (hstay : ¬ Redirects s.flags i) :
    t.pc = s.pc + BitVec.ofNat 8 i.length := by
  cases effect_of_exec h with
  | jump sel w d v =>
    by_cases htaken : jumpTaken (s.flags.get sel) w d = true
    · exact absurd (.jump htaken v) hstay
    · rw [if_neg htaken, jumpInstr_length]; rfl
  | call v => exact absurd (.call v) hstay
  | reset => exact absurd .reset hstay
  | reg | acc | xchg | store | flag | skip => rfl

theorem jumpInstr_mem (sel : FlagSel) (w d : Bool) (v : Byte) :
    jumpInstr sel w d v ∈ [Instr.jnc v, .jns v, .jnz v, .jnp v, .jc v, .js v, .jz v, .jp v,
      .jcD v, .jsD v, .jzD v, .jpD v, .jncD v, .jnsD v, .jnzD v, .jnpD v, .call v] := by
  cases sel <;> cases w <;> cases d <;> simp [jumpInstr]

/-- Settles O38: PC passes the bytes of an instruction that does not redirect, and the three kinds that do say where. -/
theorem programCounterWriters : Obligations.ProgramCounterWriters := by
  intro i s t h hne
  have hredirects : Redirects s.flags i := by
    by_contra hstay
    exact hne (pc_of_exec h hstay)
  cases hredirects with
  | @jump sel w d htaken v =>
    rw [exec_jumpInstr, if_pos htaken] at h
    cases h
    exact .inl ⟨v, jumpInstr_mem sel w d v, rfl⟩
  | call v => cases h; exact .inl ⟨v, by simp, rfl⟩
  | reset => cases h; exact .inr ⟨rfl, rfl⟩

end Sys2Proof.Machine
end

section
/-! What single instructions do: MOV Rd,PC and the store (40_data_movement.md), logic and stubs (41_alu.md), jumps and
RET (42_control.md), RESET (43_flags_system.md). -/

namespace Sys2Proof.Machine

open Sys2Proof.Statements

/-! ### Data movement -/

/-- Settles O14: the byte by its row, the effect as one write of `x[d]`. -/
theorem movRegPcGetsNextAddress : Obligations.MovRegPcGetsNextAddress :=
  ⟨oneByte_movRPc, fun d => putsInReg_of_exec (exec_movRPc d)⟩

/-- R105 in the data partition. -/
theorem exec_movMR_data {a : Byte} (hdata : 0x80#8 ≤ a) (r : Reg) (s : State) :
    exec (.movMR a r) s = .next ((s.advance 2#8).forceWrite a (s.reg r)) :=
  (exec_movMR a r s).trans (if_neg (BitVec.not_lt.mpr hdata))

theorem sameMemBut_forceWrite (s : State) (a v : Byte) : SameMemBut a s (s.forceWrite a v) :=
  fun _ hb => State.readByte_forceWrite_other s v hb

/-- Settles O15: past the partition check the store is one forced write. -/
theorem storeWritesDataPartition : Obligations.StoreWritesDataPartition := by
  intro a r s hdata
  have hcell := State.readByte_forceWrite_self (s.advance 2#8) a (s.reg r)
  have hothers : SameMemBut a s ((s.advance 2#8).forceWrite a (s.reg r)) :=
    sameMemBut_forceWrite (s.advance 2#8) a (s.reg r)
  exact ⟨_, exec_movMR_data hdata r s, hcell, hothers, rfl, fun _ => rfl, rfl, rfl, rfl⟩

/-- Settles O16: the two sides of the partition check. -/
theorem storeBelowDataPartitionFaults : Obligations.StoreBelowDataPartitionFaults := by
  refine fun a r s => ⟨fun hlow => (exec_movMR a r s).trans (if_pos hlow), fun hdata f hfault => ?_⟩
  rw [exec_movMR_data hdata] at hfault
  cases hfault

/-- Settles O6: the byte by its row, whatever `op[3:2]`; OR with 0 is the register's byte. -/
theorem storeFamilyHasNoAccDestination : Obligations.StoreFamilyHasNoAccDestination := by
  refine ⟨twoByte_movMR, fun r s => ?_⟩
  have hpc : s.pc + 1#8 + 1#8 = s.pc + 2#8 := BitVec.add_assoc s.pc 1#8 1#8
  exact ⟨_, _, exec_clrAcc s, exec_orAcc r _, BitVec.zero_or, hpc, fun _ => rfl, rfl, rfl, fun _ => rfl⟩

/-- Operand bytes that differ in bit 7 alone give one data address: that bit is masked away (R49). -/
theorem dataAddr_xor_bit7 : ∀ a : Byte, dataAddr (a ^^^ 0x80#8) = dataAddr a := by decide

theorem dataAddr_of_data : ∀ a : Byte, 0x80#8 ≤ a → dataAddr a = a := by decide

/-- Settles O52: a load sees its operand byte through the data-address decoder only. -/
theorem loadAddressesAlias : Obligations.LoadAddressesAlias := by
  refine ⟨fun a d s => ?_, fun a s => ?_, dataAddr_of_data⟩
  · rw [exec_movRM, exec_movRM, dataAddr_xor_bit7]
  · rw [exec_movAccM, exec_movAccM, dataAddr_xor_bit7]

/-! ### Logic and stubs -/

/-- Settles O23: the bytes by their rows, the effect as one write of ACC; a complement is the distance from 255. -/
theorem logicOpsOnAcc : Obligations.LogicOpsOnAcc := by
  refine ⟨oneByte_andAcc, oneByte_orAcc, oneByte_notAcc, oneByte_xorAcc, fun r => putsInAcc_of_exec (exec_andAcc r),
    fun r => putsInAcc_of_exec (exec_orAcc r), putsInAcc_of_exec fun s => ?_, fun r => putsInAcc_of_exec (exec_xorAcc r)⟩
  rw [exec_notAcc, ← BitVec.allOnes_sub_eq_not]
  rfl

/-- Settles O25: the bytes by their rows, whatever their ignored bits; the effect as PC's advance alone. -/
theorem stubNopAAndNopBDoNothing : Obligations.StubNopAAndNopBDoNothing :=
  ⟨oneByte_nopA, doesNothing_of_exec exec_nopA, oneByte_nopB, doesNothing_of_exec exec_nopB⟩

/-- Settles O28: the byte by its row, whatever its ignored bits; the effect as PC's advance alone. -/
theorem retIsAStub : Obligations.RetIsAStub :=
  ⟨oneByte_ret, doesNothing_of_exec exec_ret⟩

/-! ### Jumps -/

/-- Equal polarity and direct bits: taken on a clear flag (R140). -/
theorem jumpTaken_same (f w : Bool) : jumpTaken f w w = !f := by
  cases f <;> cases w <;> rfl

/-- Opposite polarity and direct bits: taken on a set flag (R140). -/
theorem jumpTaken_opposite (f w : Bool) : jumpTaken f w (!w) = f := by
  cases f <;> cases w <;> rfl

theorem onlyPc_setPc (s : State) (v : Byte) : OnlyPc s (s.setPc v) :=
  ⟨fun _ => rfl, rfl, rfl, rfl, fun _ => rfl⟩

theorem onlyPc_advance (s : State) (n : Byte) : OnlyPc s (s.advance n) :=
  ⟨fun _ => rfl, rfl, rfl, rfl, fun _ => rfl⟩

theorem jumpsWhen_jumpInstr (sel : FlagSel) (w d : Bool) :
    JumpsWhen (jumpInstr sel w d) (fun s => jumpTaken (s.flags.get sel) w d) :=
  fun t s => ⟨_, exec_jumpInstr sel w d t s, onlyPc_setPc s _, rfl⟩

theorem jumpsWhen_clear (sel : FlagSel) (w : Bool) : JumpsWhen (jumpInstr sel w w) (fun s => !s.flags.get sel) := by
  simpa only [jumpTaken_same] using jumpsWhen_jumpInstr sel w w

theorem jumpsWhen_set (sel : FlagSel) (w : Bool) : JumpsWhen (jumpInstr sel w (!w)) (fun s => s.flags.get sel) := by
  simpa only [jumpTaken_opposite] using jumpsWhen_jumpInstr sel w (!w)

/-- Settles O26: each byte is that of its three parameters, and of the polarity and direct bits only whether they are
equal decides on which value of the flag the jump is taken. -/
theorem jumpsAreTakenByTheirFlag : Obligations.JumpsAreTakenByTheirFlag :=
  ⟨⟨twoByte_jumpInstr .cf false false, twoByte_jumpInstr .sf false false, twoByte_jumpInstr .zf false false,
      twoByte_jumpInstr .pf false false⟩,
    ⟨twoByte_jumpInstr .cf true false, twoByte_jumpInstr .sf true false, twoByte_jumpInstr .zf true false,
      twoByte_jumpInstr .pf true false⟩,
    ⟨twoByte_jumpInstr .cf false true, twoByte_jumpInstr .sf false true, twoByte_jumpInstr .zf false true,
      twoByte_jumpInstr .pf false true⟩,
    ⟨twoByte_jumpInstr .cf true true, twoByte_jumpInstr .sf true true, twoByte_jumpInstr .zf true true,
      twoByte_jumpInstr .pf true true⟩,
    ⟨jumpsWhen_clear .cf false, jumpsWhen_clear .sf false, jumpsWhen_clear .zf false, jumpsWhen_clear .pf false⟩,
    ⟨jumpsWhen_set .cf true, jumpsWhen_set .sf true, jumpsWhen_set .zf true, jumpsWhen_set .pf true⟩,
    ⟨jumpsWhen_set .cf false, jumpsWhen_set .sf false, jumpsWhen_set .zf false, jumpsWhen_set .pf false⟩,
    ⟨jumpsWhen_clear .cf true, jumpsWhen_clear .sf true, jumpsWhen_clear .zf true, jumpsWhen_clear .pf true⟩⟩

theorem exec_jumpInstr_taken {sel : FlagSel} {w d : Bool} {s : State} (h : jumpTaken (s.flags.get sel) w d = true)
    (t : Byte) : ∃ u, exec (jumpInstr sel w d t) s = .next u ∧ u.pc = t ∧ OnlyPc s u := by
  refine ⟨s.setPc t, ?_, rfl, onlyPc_setPc s t⟩
  rw [exec_jumpInstr, if_pos h]

theorem exec_jumpInstr_notTaken {sel : FlagSel} {w d : Bool} {s : State}
    (h : jumpTaken (s.flags.get sel) w d = false) (t : Byte) :
    ∃ u, exec (jumpInstr sel w d t) s = .next u ∧ u.pc = s.pc + 2#8 ∧ OnlyPc s u := by
  refine ⟨s.setPc (s.pc + 2#8), ?_, rfl, onlyPc_setPc s _⟩
  rw [exec_jumpInstr, if_neg (by simp [h])]

/-- Settles O29: with its flag clear a jump is taken or not by its polarity and direct bits alone. -/
theorem signParityJumpsAreFixed : Obligations.SignParityJumpsAreFixed := by
  rintro s t ⟨hsf, hpf⟩
  have hclear : ∀ sel ∈ [FlagSel.sf, .pf], s.flags.get sel = false := by simp [Flags.get, hsf, hpf]
  have always : ∀ sel ∈ [FlagSel.sf, .pf], ∀ w,
      ∃ u, exec (jumpInstr sel w w t) s = .next u ∧ u.pc = t ∧ OnlyPc s u :=
    fun sel hsel w => exec_jumpInstr_taken (by rw [jumpTaken_same, hclear sel hsel, Bool.not_false]) t
  have never : ∀ sel ∈ [FlagSel.sf, .pf], ∀ w,
      ∃ u, exec (jumpInstr sel w (!w) t) s = .next u ∧ u.pc = s.pc + 2#8 ∧ OnlyPc s u :=
    fun sel hsel w => exec_jumpInstr_notTaken (by rw [jumpTaken_opposite, hclear sel hsel]) t
  simp only [List.forall_mem_cons, List.not_mem_nil, false_imp_iff, implies_true, and_true] at always never ⊢
  exact ⟨⟨always.1 false, always.2 false, always.1 true, always.2 true⟩,
    ⟨never.1 true, never.2 true, never.1 false, never.2 false⟩⟩

/-! ### RESET -/

theorem cpuZero_engineReset (s : State) (c : Bool) : CpuZero (s.engineReset c) :=
  ⟨State.engineReset_reg s c, rfl, rfl, rfl, rfl⟩

theorem dataZeroProgramKept_engineReset (s : State) : DataZeroProgramKept s (s.engineReset false) := by
  refine ⟨fun a hdata => ?_, fun a hlow => ?_⟩
  · simp [State.readByte_engineReset, BitVec.not_lt.mpr hdata]
  · simp [State.readByte_engineReset, hlow]

/-- Settles O31: the byte by its row, whatever its ignored bits; the effect as the engine reset that keeps the program. -/
theorem resetInstructionClears : Obligations.ResetInstructionClears :=
  ⟨oneByte_reset, fun s => ⟨_, exec_reset s, cpuZero_engineReset s false, dataZeroProgramKept_engineReset s⟩⟩

/-- Clearing cells twice clears them once, as lists too: no cleared cell is listed. -/
theorem Memory.clearFrom_clearFrom (m : Memory) (lo : Nat) : (m.clearFrom lo).clearFrom lo = m.clearFrom lo := by
  induction m with
  | nil => rfl
  | cons c rest ih =>
    obtain ⟨k, v⟩ := c
    by_cases hk : k < lo <;> simp [Memory.clearFrom, hk, ih]

theorem Memory.resetPort_resetPort (m : Memory) (c : Bool) : (m.resetPort c).resetPort c = m.resetPort c := by
  cases c <;> exact Memory.clearFrom_clearFrom m _

theorem State.engineReset_engineReset (s : State) (c : Bool) : (s.engineReset c).engineReset c = s.engineReset c :=
  congrArg State.reset.setMem (Memory.resetPort_resetPort s.mem c)

/-- Settles O32: both are the engine reset that keeps the program, which is idempotent. -/
theorem resetIsHostResetAndIdempotent : Obligations.ResetIsHostResetAndIdempotent :=
  ⟨exec_reset, fun s => State.engineReset_engineReset s false⟩

end Sys2Proof.Machine
end

section
/-! What every step keeps (10_state.md R28, 60_exceptions.md R184): a step under any parameters is one instruction or the
passing of one byte, so what both keep the step keeps. -/

namespace Sys2Proof.Machine

theorem execWith_or_advance_of_stepWith {p : Params} {s t : State} (h : stepWith p s = .next t) :
    (∃ i, execWith p i s = .next t) ∨ t = s.advance 1#8 := by
  rcases runDecoded_next _ _ s t h with ⟨i, _, -, hexec⟩ | ⟨_, _, -, hadvance⟩
  · exact .inl ⟨i, hexec⟩
  · exact .inr hadvance

/-! ### The canonical form of memory -/

theorem memCanonical_of_execWith {p : Params} {i : Instr} {s t : State} (hs : s.MemCanonical)
    (h : execWith p i s = .next t) : t.MemCanonical := by
  unfold State.MemCanonical
  rcases execWith_mem_cases p i s t h with hmem | ⟨a, r, -, -, hmem⟩ | ⟨-, hmem⟩
  · rwa [hmem]
  · rw [hmem]
    exact Memory.wf_write s.mem (s.reg r) (Byte.toNat_lt_memSize _) hs
  · rw [hmem]
    exact Memory.wf_resetPort s.mem _ hs

theorem memCanonical_of_stepWith {p : Params} {s t : State} (hs : s.MemCanonical) (h : stepWith p s = .next t) :
    t.MemCanonical := by
  rcases execWith_or_advance_of_stepWith h with ⟨i, hexec⟩ | rfl
  · exact memCanonical_of_execWith hs hexec
  · exact hs

/-- Settles O39, from what an instruction can do to memory. -/
theorem stepKeepsMemoryCanonical : Obligations.StepKeepsMemoryCanonical := by
  intro s t hs h
  rw [step_eq_stepWith] at h
  exact memCanonical_of_stepWith hs h

/-! ### SF and PF -/

theorem signParityClear_of_execWith {p : Params} {i : Instr} {s t : State} (hs : s.SignParityClear)
    (h : execWith p i s = .next t) : t.SignParityClear := by
  obtain ⟨hsf, hpf⟩ := hs
  rcases execWith_flags_cases p i s t h with hf | ⟨-, hf⟩ | ⟨-, hf⟩ | ⟨-, hf⟩ | ⟨-, hf⟩ | ⟨-, hf⟩ <;>
    simp [State.SignParityClear, hf, hsf, hpf]

theorem signParityClear_of_stepWith {p : Params} {s t : State} (hs : s.SignParityClear)
    (h : stepWith p s = .next t) : t.SignParityClear := by
  rcases execWith_or_advance_of_stepWith h with ⟨i, hexec⟩ | rfl
  · exact signParityClear_of_execWith hs hexec
  · exact hs

/-- Settles O41, from what an instruction can do to the flags. -/
theorem stepKeepsSignParityClear : Obligations.StepKeepsSignParityClear := by
  intro s t hs h
  rw [step_eq_stepWith] at h
  exact signParityClear_of_stepWith hs h

/-- Settles O40: nothing is listed and no flag is set. -/
theorem resetStateMeetsInvariants : Obligations.ResetStateMeetsInvariants := ⟨State.reset_mem_wf, rfl, rfl⟩

/-! ### The program partition -/

/-- A store writes above the partition and RESET clears above it. -/
theorem readByte_low_of_execWith {p : Params} {i : Instr} {s t : State} (hp : p.resetClearsProgram = false)
    (h : execWith p i s = .next t) {a : Byte} (ha : a < 0x80#8) : t.readByte a = s.readByte a := by
  unfold State.readByte
  rcases execWith_mem_cases p i s t h with hmem | ⟨b, r, -, hdata, hmem⟩ | ⟨-, hmem⟩ <;> rw [hmem]
  · have hne : a ≠ storeAddr p.storeAddr b := fun e => hdata (e ▸ ha)
    exact Memory.read_write_other s.mem _ (Byte.toNat_ne hne)
  · rw [Memory.read_resetPort, if_pos ⟨hp, (lt_partBase_iff a).mpr ha⟩]

theorem readByte_low_of_stepWith {p : Params} {s t : State} (hp : p.resetClearsProgram = false)
    (h : stepWith p s = .next t) {a : Byte} (ha : a < 0x80#8) : t.readByte a = s.readByte a := by
  rcases execWith_or_advance_of_stepWith h with ⟨i, hexec⟩ | rfl
  · exact readByte_low_of_execWith hp hexec ha
  · rfl

/-- Settles O42, from what an instruction can do to memory. -/
theorem stepPreservesProgramPartition : Obligations.StepPreservesProgramPartition := by
  refine ⟨fun s t a h ha => ?_, fun p s t a hp h ha => readByte_low_of_stepWith hp h ha⟩
  rw [step_eq_stepWith] at h
  exact readByte_low_of_stepWith params_resetClearsProgram h ha

end Sys2Proof.Machine
end

section
/-! The step of the machine seen from the byte at PC (30_encoding.md R73, R75, R80): where PC goes, when a step faults, and
what the step does not depend on. -/

namespace Sys2Proof.Machine

open Sys2Proof.Statements

/-- Settles O7: a step is fetch, decode and execute. -/
theorem stepRunsDecodedInstruction : Obligations.StepRunsDecodedInstruction :=
  ⟨State.fetchBytes_eq, fun _ _ _ h => step_of_decode h⟩

/-- The byte at PC begins a one-byte instruction: the step runs it. -/
theorem step_of_oneByte {s : State} {op : Byte} {i : Instr} (hop : s.readByte s.pc = op) (h : OneByte op i) :
    step s = exec i s :=
  step_of_decode (by rw [State.fetchBytes_eq, hop]; exact h _)

/-- The byte at PC begins a two-byte instruction: the step runs it with the operand byte after it. -/
theorem step_of_twoByte {s : State} {op : Byte} {i : Byte → Instr} (hop : s.readByte s.pc = op) (h : TwoByte op i) :
    step s = exec (i (s.readByte (s.pc + 1#8))) s :=
  step_of_decode (by rw [State.fetchBytes_eq, hop]; exact h _ [])

/-! ### Where PC goes -/

theorem eq_of_clear_jump : ∀ op : Byte, (op &&& ~~~ ignoredBits op).toNat / 16 = 5 → op &&& ~~~ ignoredBits op = op := by
  decide

theorem call_of_clear : ∀ op : Byte, op &&& ~~~ ignoredBits op = 0xC1#8 → op.toNat / 16 = 12 ∧ op.toNat % 2 = 1 := by
  decide

theorem reset_of_clear : ∀ op : Byte, op &&& ~~~ ignoredBits op = 0xF0#8 → op.toNat / 16 = 15 := by decide

theorem jumpTakenBy_jumpOp (sel : FlagSel) (w d : Bool) (f : Flags) :
    JumpTakenBy (jumpOp sel w d) f = jumpTaken (f.get sel) w d := by
  cases sel <;> cases w <;> cases d <;> rfl

/-- The bytes that decode to an instruction which sets PC are those of the list. -/
theorem setsPcUnder_of_redirects {f : Flags} {op b : Byte} {rest rest' : List Byte} {i : Instr}
    (h : decode (op :: b :: rest) = .instr i rest') (hi : Redirects f i) : SetsPcUnder f op := by
  have hencode := encode_of_decode h
  cases hi with
  | @jump sel w d htaken v =>
    rw [encode_jumpInstr] at hencode
    have hclear := (List.cons.inj hencode).1
    have hop : jumpOp sel w d = op := hclear.trans (eq_of_clear_jump op (hclear ▸ jumpOp_family sel w d))
    rw [← hop]
    exact .inl ⟨jumpOp_family sel w d, (jumpTakenBy_jumpOp sel w d f).trans htaken⟩
  | call v => exact .inr (.inl (call_of_clear op (List.cons.inj hencode).1.symm))
  | reset => exact .inr (.inr (reset_of_clear op (List.cons.inj hencode).1.symm))

theorem pc_of_step {s t : State} (h : step s = .next t) (hstay : ¬ SetsPcUnder s.flags (s.readByte s.pc)) :
    t.pc = s.pc + if BeginsTwoBytes (s.readByte s.pc) then 2#8 else 1#8 := by
  obtain ⟨i, rest, hdecode⟩ := decode_fetchBytes_isInstr s
  rw [step_of_decode hdecode] at h
  rw [State.fetchBytes_eq] at hdecode
  rw [pc_of_exec h (fun hi => hstay (setsPcUnder_of_redirects hdecode hi)), length_of_decode hdecode]
  split <;> rfl

/-- Settles O8: the byte at PC is none that redirects, so PC passes the bytes of its instruction. -/
theorem stepAdvancesPastItsBytes : Obligations.StepAdvancesPastItsBytes := by
  intro s t h hstay
  refine ⟨fun htwo => ?_, fun hone => ?_⟩
  · rw [pc_of_step h hstay, if_pos htwo]
  · rw [pc_of_step h hstay, if_neg hone]

theorem setsPc_of_setsPcUnder {f : Flags} {op : Byte} (h : SetsPcUnder f op) : SetsPc op :=
  h.imp_left And.left

/-- Settles O9: addresses are bytes, so 255 + 1 is 0 and 255 + 2 is 1. -/
theorem pcWrapsAtTopOfMemory : Obligations.PcWrapsAtTopOfMemory := by
  intro s hpc
  have hadvance : ∀ t, step s = .next t → ¬ SetsPc (s.readByte 0xFF#8) →
      t.pc = 0xFF#8 + if BeginsTwoBytes (s.readByte 0xFF#8) then 2#8 else 1#8 := by
    intro t h hstay
    rw [← hpc] at hstay ⊢
    exact pc_of_step h (fun hsets => hstay (setsPc_of_setsPcUnder hsets))
  refine ⟨?_, fun t h hstay hone => ?_, fun t h hstay htwo => ?_⟩
  · rw [State.fetchBytes_eq, hpc]; rfl
  · rw [hadvance t h hstay, if_neg hone]; rfl
  · rw [hadvance t h hstay, if_pos htwo]; rfl

/-- Settles O46: `JNS` with SF clear goes to its target, which is the PC it has. -/
theorem jumpToItselfIsAFixedPoint : Obligations.JumpToItselfIsAFixedPoint := by
  intro s hop htarget hsf
  have htaken : jumpTaken (s.flags.get .sf) false false = true := by rw [jumpTaken_same, Flags.get, hsf]; rfl
  rw [step_of_twoByte hop (twoByte_jumpInstr .sf false false), exec_jumpInstr, if_pos htaken, htarget]
  rfl

/-- Settles O47: the fetch reads PC through the read port, and both writes put their byte in the cell at PC. -/
theorem storedByteIsFetched : Obligations.StoredByteIsFetched := by
  have hforce : ∀ (a v : Byte) (s u : State), u.mem = (s.forceWrite a v).mem → u.pc = a →
      u.fetchBytes.head? = some v := by
    intro a v s u hmem hpc
    rw [State.fetchBytes_eq, List.head?_cons, hpc, State.readByte_eq, hmem]
    exact congrArg some (State.readByte_forceWrite_self s a v)
  refine ⟨fun a r s t u h hmem hpc => ?_, hforce⟩
  rw [exec_movMR] at h
  split at h
  · cases h
  · cases h; exact hforce a (s.reg r) (s.advance 2#8) u hmem hpc

/-! ### The encodings the trace reports (30_encoding.md R85) -/

theorem append_family : ∀ op : Byte, op.extractLsb' 4 4 ++ op.extractLsb' 0 4 = op := by decide

theorem append_family_bit0 : ∀ op : Byte,
    op.extractLsb' 4 4 ++ op.extractLsb' 1 3 ++ BitVec.ofBool (op.getLsbD 0) = op := by decide

/-- They are the encodings of four instructions that do nothing. -/
theorem oneByte_of_ignoredOpcode {op : Byte} (h : ignoredOpcode op = true) : ∃ i, OneByte op i ∧ DoesNothing i := by
  simp only [ignoredOpcode, Bool.or_eq_true, Bool.and_eq_true, Bool.not_eq_true', beq_iff_eq] at h
  have hop := append_family op
  rcases h with ((hf | hf) | hf) | ⟨hf, hbit⟩
  · exact ⟨.nop9, by rw [← hop, hf]; exact oneByte_nop9 _, doesNothing_of_exec exec_nop9⟩
  · exact ⟨.nopA, by rw [← hop, hf]; exact oneByte_nopA _, doesNothing_of_exec exec_nopA⟩
  · exact ⟨.nopB, by rw [← hop, hf]; exact oneByte_nopB _, doesNothing_of_exec exec_nopB⟩
  · have hop := append_family_bit0 op
    rw [hf, hbit] at hop
    exact ⟨.ret, hop ▸ oneByte_ret _, doesNothing_of_exec exec_ret⟩

/-- Settles O48: the event names the byte at PC, which begins an instruction that does nothing. -/
theorem ignoredEncodingsOnlyAdvancePc : Obligations.IgnoredEncodingsOnlyAdvancePc := by
  intro s op at_ h
  unfold ignoredEvent at h
  split at h
  · next hignored =>
    cases h
    obtain ⟨i, hbyte, hnothing⟩ := oneByte_of_ignoredOpcode hignored
    rw [step_of_oneByte rfl hbyte]
    exact ⟨rfl, rfl, hnothing s⟩
  · cases h

/-! ### Faults (60_exceptions.md sections 1 and 2) -/

theorem family_clear : ∀ op : Byte, (op &&& ~~~ ignoredBits op).extractLsb' 4 4 = op.extractLsb' 4 4 := by decide

/-- Only a byte of family 0x2 decodes to a store, whose address is the operand byte. -/
theorem family_of_decode_movMR {op b a : Byte} {r : Reg} {rest rest' : List Byte}
    (h : decode (op :: b :: rest) = .instr (.movMR a r) rest') : op.extractLsb' 4 4 = 0x2#4 ∧ b = a := by
  obtain ⟨hhead, htail⟩ := List.cons.inj (encode_of_decode h)
  constructor
  · rw [← family_clear, ← hhead]
    cases r <;> rfl
  · split at htail <;> cases htail
    rfl

theorem append_family_slots : ∀ op : Byte,
    op.extractLsb' 4 4 ++ op.extractLsb' 2 2 ++ op.extractLsb' 0 2 = op := by decide

theorem step_of_family2 {s : State} (h : (s.readByte s.pc).extractLsb' 4 4 = 0x2#4) :
    ∃ r, step s = exec (.movMR (s.readByte (s.pc + 1#8)) r) s := by
  have hop := append_family_slots (s.readByte s.pc)
  rw [h, ← Reg.bits_ofBits (BitVec.extractLsb' 0 2 _)] at hop
  exact ⟨_, step_of_twoByte hop.symm (twoByte_movMR _ _)⟩

/-- Settles O43: a step that faults runs a store below 0x80, and family 0x2 is the store. -/
theorem faultIsExactlyALowStore : Obligations.FaultIsExactlyALowStore := by
  refine fun s f => ⟨fun h => ?_, fun ⟨hfamily, hlow, hf⟩ => ?_⟩
  · rcases step_next_or_lowStore s with ⟨t, hnext⟩ | ⟨a, r, rest, hdecode, hlow, hfault⟩
    · simp [hnext] at h
    · obtain ⟨hfamily, rfl⟩ := family_of_decode_movMR hdecode
      rw [hfault] at h
      cases h
      exact ⟨hfamily, hlow, rfl⟩
  · obtain ⟨r, hstep⟩ := step_of_family2 hfamily
    rw [hstep, exec_movMR, if_pos hlow, hf]

/-- The host finds the state before the faulted step, or that state with PC past the two bytes. -/
theorem eq_afterFault_of_hostStep {p : Params} {s t : State} {f : Fault} (h : hostStep p s = (t, .fault f)) :
    t = afterFault p.faultPc s := by
  unfold hostStep at h
  split at h <;> cases h
  rfl

/-- Settles O44: a faulted step leaves the state, which is so a fixed point of the host's step. -/
theorem faultedStepRepeatsForever : Obligations.FaultedStepRepeatsForever := by
  intro s t f h
  have hts : t = s := eq_afterFault_of_hostStep h
  subst hts
  have hfixed : (hostStep params t).1 = t := by rw [h]
  refine ⟨rfl, fun n => ?_⟩
  rw [Function.iterate_fixed (f := fun u => (hostStep params u).1) hfixed n, h]

/-! ### Control does not depend on data (42_control.md R147) -/

/-- How a step ends, of the next state only PC, CT and the flags. -/
def controlOf : Host.Outcome State Fault Refusal → Host.Outcome (Byte × Byte × Flags) Fault Refusal
  | .next t    => .next (t.pc, t.ct, t.flags)
  | .fault f   => .fault f
  | .refused r => .refused r

theorem controlOf_eq_next {o : Host.Outcome State Fault Refusal} {c : Byte × Byte × Flags} :
    controlOf o = .next c ↔ ∃ t, o = .next t ∧ (t.pc, t.ct, t.flags) = c := by
  cases o <;> simp [controlOf]

theorem controlOf_eq_fault {o : Host.Outcome State Fault Refusal} {f : Fault} :
    controlOf o = .fault f ↔ o = .fault f := by
  cases o <;> simp [controlOf]

/-- The state with other general registers and another ACC. -/
def State.withData (s : State) (x : Regs) (acc : Byte) : State := { s with x := x, acc := acc }

theorem State.eq_withData {s t : State} (hpc : s.pc = t.pc) (hct : s.ct = t.ct) (hflags : s.flags = t.flags)
    (hmem : s.mem = t.mem) : t = s.withData t.x t.acc := by
  simp only [State.withData, hpc, hct, hflags, hmem]

/-- The store's fault is of its operand and the jump's decision of a flag; no other instruction has a choice. -/
theorem controlOf_exec_withData (i : Instr) (s : State) (x : Regs) (acc : Byte) :
    controlOf (exec i (s.withData x acc)) = controlOf (exec i s) := by
  cases i with
  | movMR a r =>
    rw [exec_movMR, exec_movMR]
    split <;> rfl
  | jnc t | jns t | jnz t | jnp t | jc t | js t | jz t | jp t | jcD t | jsD t | jzD t | jpD t
  | jncD t | jnsD t | jnzD t | jnpD t =>
    rw [exec_eq_execWith, exec_eq_execWith, execWith, execWith, jumpWith_eq, jumpWith_eq]
    rfl
  | _ => rfl

theorem controlOf_step_withData (s : State) (x : Regs) (acc : Byte) :
    controlOf (step (s.withData x acc)) = controlOf (step s) := by
  obtain ⟨i, rest, hdecode⟩ := decode_fetchBytes_isInstr s
  have hdecode' : decode (s.withData x acc).fetchBytes = .instr i rest := hdecode
  rw [step_of_decode hdecode, step_of_decode hdecode', controlOf_exec_withData]

/-- Settles O45: the other state is this one with other data, and control does not depend on data. -/
theorem controlFlowIgnoresData : Obligations.ControlFlowIgnoresData := by
  intro s t hpc hct hflags hmem
  have hcontrol : controlOf (step t) = controlOf (step s) := by
    rw [State.eq_withData hpc hct hflags hmem]
    exact controlOf_step_withData s t.x t.acc
  refine ⟨fun s' h => ?_, fun f h => ?_⟩
  · obtain ⟨t', ht', hc⟩ := controlOf_eq_next.mp (hcontrol.trans (controlOf_eq_next.mpr ⟨s', h, rfl⟩))
    simp only [Prod.mk.injEq] at hc
    exact ⟨t', ht', hc⟩
  · exact controlOf_eq_fault.mp (hcontrol.trans (controlOf_eq_fault.mpr h))

end Sys2Proof.Machine
end

section
/-! The memory block's ports and the host (20_memory.md R43 to R46, 10_state.md R31, R34, R36, 70_reset_and_hazards.md R204,
R205): what each host operation does, and the invariants over sequences of them. -/

namespace Sys2Proof.Machine

open Sys2Proof.Statements

/-! ### The host's operations on a Ready engine -/

theorem hostOnReady_memWrite_low (p : Params) (s : State) {a : Byte} (v : Byte) (h : a < 0x80#8) :
    hostOnReady p (.memWrite a v) s = (s, .ended (.fault (.protectedRegion a))) := by
  rw [hostOnReady, State.restrictedWrite_error s v h]

theorem hostOnReady_memWrite_data (p : Params) (s : State) {a : Byte} (v : Byte) (h : 0x80#8 ≤ a) :
    hostOnReady p (.memWrite a v) s = (s.forceWrite a v, .done) := by
  rw [hostOnReady, State.restrictedWrite_ok s v (BitVec.not_lt.mpr h)]

/-- A direct write ends with the state as it was, or with the forced write. -/
theorem hostOnReady_memWrite_cases (p : Params) (s : State) (a v : Byte) :
    (hostOnReady p (.memWrite a v) s).1 = s ∨ (hostOnReady p (.memWrite a v) s).1 = s.forceWrite a v := by
  by_cases h : a < 0x80#8
  · exact .inl (by rw [hostOnReady_memWrite_low p s v h])
  · exact .inr (by rw [hostOnReady_memWrite_data p s v (BitVec.not_lt.mp h)])

theorem State.readByte_memReset (s : State) (c : Bool) (a : Byte) :
    (s.memReset c).readByte a = if c = false ∧ a < 0x80#8 then s.readByte a else 0#8 :=
  Memory.read_resetPort s.mem c a.toNat

/-! ### The ports -/

/-- Settles O49: both ports are the forced write, before one of them the partition check. -/
theorem writePortsEnforceThePartition : Obligations.WritePortsEnforceThePartition := by
  refine ⟨fun s a v hlow => s.restrictedWrite_error v hlow, fun s a v hdata => ?_, fun s a v => ?_,
    fun p s a v hlow => hostOnReady_memWrite_low p s v hlow, fun p s a v hdata => ?_, fun p s a v => rfl⟩
  · exact ⟨_, s.restrictedWrite_ok v (BitVec.not_lt.mpr hdata), s.readByte_forceWrite_self a v,
      sameMemBut_forceWrite s a v, rfl, rfl, rfl, rfl, rfl⟩
  · exact ⟨s.readByte_forceWrite_self a v, sameMemBut_forceWrite s a v, rfl, rfl, rfl, rfl, rfl⟩
  · exact ⟨_, hostOnReady_memWrite_data p s v hdata, s.readByte_forceWrite_self a v,
      sameMemBut_forceWrite s a v, rfl, rfl, rfl, rfl, rfl⟩

/-- Settles O50: one cell after the reset port, and the engine reset leaves the memory this port leaves. -/
theorem memoryResetPort : Obligations.MemoryResetPort := by
  refine ⟨dataZeroProgramKept_engineReset, fun s a => ?_, fun s c => ⟨rfl, rfl, rfl, rfl, rfl⟩, fun s => rfl,
    fun p c s => rfl, fun p s => ⟨rfl, rfl⟩⟩
  simp [State.readByte_memReset]

/-- Settles O55: a read answers with the state as it is, a memory write replaces the memory alone. -/
theorem hostReadsWithoutEffect : Obligations.HostReadsWithoutEffect := by
  refine ⟨fun p s a => rfl, fun p s => rfl, fun p s a v c op hop t ht => ?_,
    fun p s c => ⟨_, rfl, s.readByte_memReset c⟩,
    fun p s a v => ⟨_, rfl, s.readByte_forceWrite_self a v, sameMemBut_forceWrite s a v⟩,
    fun p s a v => ⟨hostOnReady_memWrite_low p s v, hostOnReady_memWrite_data p s v⟩⟩
  subst ht
  simp only [List.mem_cons, List.not_mem_nil, or_false] at hop
  rcases hop with rfl | rfl | rfl
  · exact ⟨rfl, rfl, rfl, rfl, rfl⟩
  · rcases hostOnReady_memWrite_cases p s a v with hstate | hstate <;> rw [hstate] <;> exact ⟨rfl, rfl, rfl, rfl, rfl⟩
  · exact ⟨rfl, rfl, rfl, rfl, rfl⟩

/-! ### Loading -/

/-- A load that is accepted builds a new engine, whatever was there. -/
theorem hostApply_load_ok (p : Params) (e : Engine) {image : List Byte} (h : image.length ≤ 128) :
    hostApply p (.load image) e = (some (construct image), .done) := by
  have hwf := (imageWf_iff image).mpr h
  cases e <;> simp [hostApply, hostOnIdle, hostOnReady, hwf]

theorem hostApply_load_refused (p : Params) (e : Engine) {image : List Byte} (h : 128 < image.length) :
    hostApply p (.load image) e = (e, .programTooLarge) := by
  have hwf : ¬ imageWf image = true := fun w => absurd ((imageWf_iff image).mp w) (by omega)
  cases e <;> simp [hostApply, hostOnIdle, hostOnReady, hwf]

theorem memCanonical_construct {image : List Byte} (h : image.length ≤ 128) : (construct image).MemCanonical :=
  Memory.wf_ofImage image ((imageWf_iff image).mpr h)

/-- Settles O53: the engine built is the reset state over the image's memory. -/
theorem loadBuildsTheMachine : Obligations.LoadBuildsTheMachine := by
  intro p e image h
  have hcpu : CpuZero (construct image) := ⟨State.reset_reg, rfl, rfl, rfl, rfl⟩
  exact ⟨_, hostApply_load_ok p e h, hcpu, memCanonical_construct h, fun a => Memory.read_ofImage image a.toNat⟩

/-- Settles O54: the loader's check decides, on the length alone. -/
theorem longImageIsRefused : Obligations.LongImageIsRefused := by
  refine ⟨fun p e image h => hostApply_load_refused p e h, fun p e image h => ?_⟩
  rw [hostApply_load_ok p e (Nat.le_of_eq h)]

/-- Settles O56: of the eight operations all but the load leave Idle. -/
theorem idleEngineOnlyLoads : Obligations.IdleEngineOnlyLoads := by
  intro p op hload
  cases op with
  | load image => exact absurd rfl (hload image)
  | step | reset | memReset | memWrite | forceWrite | memRead | snapshot => rfl

/-! ### The host's step -/

theorem hostStep_of_next {p : Params} {s t : State} (h : stepWith p s = .next t) : hostStep p s = (t, .ok) := by
  rw [hostStep, h]

theorem hostStep_of_fault {p : Params} {s : State} {f : Fault} (h : stepWith p s = .fault f) :
    hostStep p s = (afterFault p.faultPc s, .fault f) := by
  rw [hostStep, h]

theorem hostStep_of_refused {p : Params} {s : State} {r : Refusal} (h : stepWith p s = .refused r) :
    hostStep p s = (s, .refused r) := by
  rw [hostStep, h]

/-- Settles O60: the three ends of a step, one by one. -/
theorem hostStepReportsHowTheStepEnded : Obligations.HostStepReportsHowTheStepEnded := by
  refine ⟨fun p s t => hostStep_of_next, fun p s f h hp => ?_, fun p s r => hostStep_of_refused, fun p s => rfl,
    fun s => (step_eq_stepWith s).symm, fun p op s => rfl⟩
  rw [hostStep_of_fault h, hp]
  rfl

/-! ### Both invariants, over any sequence of host operations -/

/-- The two invariants of the machine. -/
def Invariants (s : State) : Prop := s.MemCanonical ∧ s.SignParityClear

theorem invariants_construct {image : List Byte} (h : image.length ≤ 128) : Invariants (construct image) :=
  ⟨memCanonical_construct h, rfl, rfl⟩

theorem Invariants.forceWrite {s : State} (h : Invariants s) (a v : Byte) : Invariants (s.forceWrite a v) :=
  ⟨s.forceWrite_wf a v h.1, h.2⟩

theorem Invariants.memReset {s : State} (h : Invariants s) (c : Bool) : Invariants (s.memReset c) :=
  ⟨Memory.wf_resetPort s.mem c h.1, h.2⟩

theorem Invariants.engineReset {s : State} (h : Invariants s) (c : Bool) : Invariants (s.engineReset c) :=
  ⟨Memory.wf_resetPort s.mem c h.1, rfl, rfl⟩

/-- Whether it ends well, with a fault or refused, a step keeps both invariants. -/
theorem Invariants.hostStep {s : State} (h : Invariants s) (p : Params) : Invariants (hostStep p s).1 := by
  cases hstep : stepWith p s with
  | next t =>
    rw [hostStep_of_next hstep]
    exact ⟨memCanonical_of_stepWith h.1 hstep, signParityClear_of_stepWith h.2 hstep⟩
  | fault f =>
    rw [hostStep_of_fault hstep]
    cases p.faultPc <;> exact h
  | refused r =>
    rw [hostStep_of_refused hstep]
    exact h

theorem Invariants.hostOnReady {s : State} (h : Invariants s) (p : Params) (op : HostOp) :
    Invariants (hostOnReady p op s).1 := by
  cases op with
  | load image =>
    rw [Machine.hostOnReady]
    split
    · next hwf => exact invariants_construct ((imageWf_iff image).mp hwf)
    · exact h
  | step => exact h.hostStep p
  | reset => exact h.engineReset p.resetClearsProgram
  | memReset clear => exact h.memReset clear
  | memWrite a v =>
    rcases hostOnReady_memWrite_cases p s a v with hstate | hstate <;> rw [hstate]
    · exact h
    · exact h.forceWrite a v
  | forceWrite a v => exact h.forceWrite a v
  | memRead | snapshot => exact h

theorem Invariants.foldl_hostOnReady (p : Params) (ops : List HostOp) {s : State} (h : Invariants s) :
    Invariants (ops.foldl (fun u op => (Machine.hostOnReady p op u).1) s) := by
  induction ops generalizing s with
  | nil => exact h
  | cons op ops ih => exact ih (h.hostOnReady p op)

/-- Settles O57, by induction on the list of operations. -/
theorem hostSequencesKeepInvariants : Obligations.HostSequencesKeepInvariants :=
  fun p ops _ hmem hflags => Invariants.foldl_hostOnReady p ops ⟨hmem, hflags⟩

end Sys2Proof.Machine
end

section
/-! What the parameters' other values do (00_scope.md R6): P_NONCANON on a byte by its ignored bits (30_encoding.md R76,
R84), and the store, XOR, RET, RESET, the jump and the fault under theirs. -/

namespace Sys2Proof

open Sys2Proof.Statements

/-! ### Canonical and other bytes -/

/-- The ignored bits of a byte's row are those of its family (R76). -/
theorem lookup_canonical : ∀ op : Byte,
    (lookup op).map (fun row => row.canonical op) = some (decide (op &&& ignoredBits op = 0#8)) := by decide

/-- Of the bytes with an ignored bit set R84 accepts those of family 0x8 alone. -/
theorem accepts_r84_iff : ∀ op : Byte, op &&& ignoredBits op ≠ 0#8 →
    (RefuseRule.accepts .r84 op = true ↔ op.toNat / 16 = 8) := by decide

theorem decodeWith_of_ignored_clear {op : Byte} (h : op &&& ignoredBits op = 0#8) (nc : NonCanon) (rest : List Byte) :
    decodeWith nc (op :: rest) = decode (op :: rest) :=
  decodeWith_canonical nc op rest (by rw [lookup_canonical, decide_eq_true h])

section
variable {op : Byte} (h : op &&& ignoredBits op ≠ 0#8) (rest : List Byte)
include h

theorem lookup_nonCanonical : (lookup op).map (fun row => row.canonical op) = some false := by
  rw [lookup_canonical, decide_eq_false h]

theorem decodeWith_nop_of_ignored_set : decodeWith .nop (op :: rest) = .noop op rest :=
  decodeWith_nonCanonical .nop op rest (lookup_nonCanonical h)

theorem decodeWith_r76_of_ignored_set : decodeWith (.refuse .r76) (op :: rest) = .refuse (.nonCanonical op) :=
  decodeWith_nonCanonical (.refuse .r76) op rest (lookup_nonCanonical h)

theorem decodeWith_r84_of_ignored_set : decodeWith (.refuse .r84) (op :: rest) =
    if op.toNat / 16 = 8 then decode (op :: rest) else .refuse (.nonCanonical op) := by
  have hdecode := decodeWith_nonCanonical (.refuse .r84) op rest (lookup_nonCanonical h)
  simpa only [accepts_r84_iff op h, decode_eq] using hdecode

end

/-- The values of P_NONCANON under which a byte keeps its default meaning. -/
theorem decodeWith_eq_decode {nc : NonCanon} {op : Byte} (rest : List Byte)
    (h : op &&& ignoredBits op = 0#8 ∨ nc = .ignore ∨ (nc = .refuse .r84 ∧ op.toNat / 16 = 8)) :
    decodeWith nc (op :: rest) = decode (op :: rest) := by
  by_cases hclear : op &&& ignoredBits op = 0#8
  · exact decodeWith_of_ignored_clear hclear nc rest
  · rcases h with h | rfl | ⟨rfl, hfamily⟩
    · exact absurd h hclear
    · rfl
    · rw [decodeWith_r84_of_ignored_set hclear, if_pos hfamily]

end Sys2Proof

namespace Sys2Proof.Machine

open Sys2Proof.Statements

theorem State.fetchDecode_eq (s : State) (nc : NonCanon) :
    s.fetchDecode nc = decodeWith nc [s.readByte s.pc, s.readByte (s.pc + 1#8)] := rfl

/-! ### Steps on a byte with an ignored bit set -/

theorem stepWith_nop_of_ignored_set {p : Params} {s : State} (hp : p.nonCanon = .nop)
    (h : s.readByte s.pc &&& ignoredBits (s.readByte s.pc) ≠ 0#8) : stepWith p s = .next (s.advance 1#8) := by
  refine stepWith_noop p s (op := s.readByte s.pc) (rest := [s.readByte (s.pc + 1#8)]) ?_
  rw [hp, State.fetchDecode_eq, decodeWith_nop_of_ignored_set h]

theorem stepWith_r76_of_ignored_set {p : Params} {s : State} (hp : p.nonCanon = .refuse .r76)
    (h : s.readByte s.pc &&& ignoredBits (s.readByte s.pc) ≠ 0#8) :
    stepWith p s = .refused (.undecodable (.nonCanonical (s.readByte s.pc))) := by
  refine stepWith_refuse p s ?_
  rw [hp, State.fetchDecode_eq, decodeWith_r76_of_ignored_set h]

theorem stepWith_r84_of_ignored_set {p : Params} {s : State} (hp : p.nonCanon = .refuse .r84)
    (h : s.readByte s.pc &&& ignoredBits (s.readByte s.pc) ≠ 0#8) (hfamily : (s.readByte s.pc).toNat / 16 ≠ 8) :
    stepWith p s = .refused (.undecodable (.nonCanonical (s.readByte s.pc))) := by
  refine stepWith_refuse p s ?_
  rw [hp, State.fetchDecode_eq, decodeWith_r84_of_ignored_set h, if_neg hfamily]

/-- A byte that keeps its default meaning runs as the instruction of that meaning. -/
theorem stepWith_of_decode {p : Params} {s : State} {i : Instr} {rest : List Byte}
    (h : s.readByte s.pc &&& ignoredBits (s.readByte s.pc) = 0#8 ∨ p.nonCanon = .ignore ∨
      (p.nonCanon = .refuse .r84 ∧ (s.readByte s.pc).toNat / 16 = 8))
    (hdecode : decode s.fetchBytes = .instr i rest) : stepWith p s = execWith p i s := by
  refine stepWith_instr p s (rest := rest) ?_
  rw [State.fetchDecode_eq, decodeWith_eq_decode _ h, ← State.fetchBytes_eq, hdecode]

/-! ### Instructions -/

/-- P_STORE_ADDR = masked: the address presented is in the data partition, so the store is one forced write. -/
theorem execWith_movMR_masked {p : Params} (hp : p.storeAddr = .masked) (a : Byte) (r : Reg) (s : State) :
    execWith p (.movMR a r) s = .next ((s.advance 2#8).forceWrite (dataAddr a) (s.reg r)) := by
  rw [execWith, storeWith_eq, hp]
  exact if_neg (BitVec.not_lt.mpr (dataAddr_high a))

/-- P_LOGIC_OP3 = nop. -/
theorem execWith_xorAcc_nop {p : Params} (hp : p.logicOp3 = .nop) (r : Reg) (s : State) :
    execWith p (.xorAcc r) s = .next (s.advance 1#8) := by
  rw [execWith, hp]; rfl

/-- P_RET = restore. -/
theorem execWith_ret_restore {p : Params} (hp : p.ret = .restore) (s : State) :
    execWith p .ret s = .next (s.setPc s.ct) := by
  rw [execWith, hp]; rfl

/-- Settles O58, parameter by parameter. -/
theorem parameterAlternatives : Obligations.ParameterAlternatives := by
  refine ⟨fun p a r s hp => ?_, fun p r s hp => ?_, fun p s hp => ?_, fun op rest h => ?_,
    fun op rest nc h => decodeWith_of_ignored_clear h nc rest, fun p s hp h => ?_,
    fun p s hp h => stepWith_r76_of_ignored_set hp h, fun p s hp h hfamily => stepWith_r84_of_ignored_set hp h hfamily,
    fun p s i rest h hdecode => stepWith_of_decode h hdecode, fun p s hp => ?_, fun p s t f hp h => ?_⟩
  · have hcell := State.readByte_forceWrite_self (s.advance 2#8) (dataAddr a) (s.reg r)
    have hothers : SameMemBut (dataAddr a) s ((s.advance 2#8).forceWrite (dataAddr a) (s.reg r)) :=
      sameMemBut_forceWrite (s.advance 2#8) (dataAddr a) (s.reg r)
    exact ⟨_, execWith_movMR_masked hp a r s, hcell, hothers, rfl, fun _ => rfl, rfl, rfl, rfl⟩
  · exact ⟨_, execWith_xorAcc_nop hp r s, rfl, onlyPc_advance s 1#8⟩
  · exact ⟨_, execWith_ret_restore hp s, rfl, onlyPc_setPc s s.ct⟩
  · exact ⟨decodeWith_nop_of_ignored_set h rest, decodeWith_r76_of_ignored_set h rest,
      decodeWith_r84_of_ignored_set h rest⟩
  · exact ⟨_, stepWith_nop_of_ignored_set hp h, rfl, onlyPc_advance s 1#8⟩
  · refine ⟨s.engineReset p.resetClearsProgram, rfl, rfl, cpuZero_engineReset s _, fun a => ?_⟩
    simp [State.readByte_engineReset, hp]
  · have ht : t = s.advance 2#8 := by rw [eq_afterFault_of_hostStep h, hp]; rfl
    rw [ht]
    exact ⟨rfl, onlyPc_advance s 2#8⟩

/-! ### The jump under P_JUMP_CONSUME = taken_only (42_control.md R141 (a)) -/

/-- The jump on `sel` with bits `w` and `d` goes to its target when `taken`, and past its opcode byte otherwise. -/
theorem execWith_jumpInstr_takenOnly {p : Params} (hp : p.jumpConsume = .takenOnly) {sel : FlagSel} {w d taken : Bool}
    {s : State} (htaken : jumpTaken (s.flags.get sel) w d = taken) (t : Byte) :
    ∃ u, execWith p (jumpInstr sel w d t) s = .next u ∧ OnlyPc s u ∧ u.pc = if taken then t else s.pc + 1#8 := by
  refine ⟨s.setPc (if taken then t else s.pc + 1#8), ?_, onlyPc_setPc s _, rfl⟩
  rw [execWith_jumpInstr, jumpWith_eq, hp, htaken]

/-- Settles O59: which value of the flag each jump is taken on is as by default. -/
theorem takenOnlyJumpAlternative : Obligations.TakenOnlyJumpAlternative := by
  intro p s t hp i taken hmem
  have onClear : ∀ sel w, ∃ u, execWith p (jumpInstr sel w w t) s = .next u ∧ OnlyPc s u ∧
      u.pc = if (!s.flags.get sel) then t else s.pc + 1#8 :=
    fun sel w => execWith_jumpInstr_takenOnly hp (jumpTaken_same _ w) t
  have onSet : ∀ sel w, ∃ u, execWith p (jumpInstr sel w (!w) t) s = .next u ∧ OnlyPc s u ∧
      u.pc = if s.flags.get sel then t else s.pc + 1#8 :=
    fun sel w => execWith_jumpInstr_takenOnly hp (jumpTaken_opposite _ w) t
  simp only [List.mem_cons, List.not_mem_nil, or_false, Prod.mk.injEq] at hmem
  rcases hmem with ⟨rfl, rfl⟩ | ⟨rfl, rfl⟩ | ⟨rfl, rfl⟩ | ⟨rfl, rfl⟩ | ⟨rfl, rfl⟩ | ⟨rfl, rfl⟩ | ⟨rfl, rfl⟩ | ⟨rfl, rfl⟩ |
    ⟨rfl, rfl⟩ | ⟨rfl, rfl⟩ | ⟨rfl, rfl⟩ | ⟨rfl, rfl⟩ | ⟨rfl, rfl⟩ | ⟨rfl, rfl⟩ | ⟨rfl, rfl⟩ | ⟨rfl, rfl⟩
  · exact onClear .cf false
  · exact onClear .sf false
  · exact onClear .zf false
  · exact onClear .pf false
  · exact onSet .cf true
  · exact onSet .sf true
  · exact onSet .zf true
  · exact onSet .pf true
  · exact onSet .cf false
  · exact onSet .sf false
  · exact onSet .zf false
  · exact onSet .pf false
  · exact onClear .cf true
  · exact onClear .sf true
  · exact onClear .zf true
  · exact onClear .pf true

end Sys2Proof.Machine
end
